-- ==== Sys2Proof/Word.lean ====
section
/-! DEFINITION. The word, byte and index types of the Jupiter CORE (00_scope.md rule R6; 10_state.md rule R23). -/

namespace Sys2Proof

/-- A 32-bit vector: an integer register, a floating-point pattern, an address, an instruction word (rule R6). -/
abbrev Word := BitVec 32

/-- A 16-bit vector: a halfword of memory (20_memory.md rule R48). -/
abbrev Half := BitVec 16

/-- The addressable unit of memory (rule R6). -/
abbrev Byte := BitVec 8

/-- A register index: a 5-bit field of the instruction word (10_state.md rule R23). -/
abbrev RegIdx := BitVec 5

end Sys2Proof
end

