-- ==== Sys2Proof/Machine/Flags.lean ====
section
/-! DEFINITION. The machine has no flag and no status register (10_state.md rule R28; 48_fp_fma.md rule R218). What other
machines hold in flags is here the verdict of a comparison, used in the same instruction: as the 0 or 1 of a set
instruction (40_integer_alu.md rule R122) or as the predicate of a branch (44_branches.md rule R170). -/

namespace Sys2Proof.Machine

/-- `a <s b`: signed(a) < signed(b) (00_scope.md rule R10). -/
def ltSigned (a b : Word) : Bool := decide (a.toInt < b.toInt)

/-- `a <u b`: unsigned(a) < unsigned(b) (rule R10). -/
def ltUnsigned (a b : Word) : Bool := decide (a.toNat < b.toNat)

/-- The 32-bit value 1 when the comparison holds, 0 when it does not (rule R122). -/
def flagWord (c : Bool) : Word := if c then 1#32 else 0#32

end Sys2Proof.Machine
end

