-- ==== Sys2Proof/Config.lean ====
section
/-! DEFINITION. What the spec leaves to the session or to an implementation (00_scope.md rule R7), and the values the
model names where a value is needed at reset (assumption log 1, 2, 3, 5). -/

namespace Sys2Proof

/-- The reset value of x1 .. x31 and f0 .. f31. DESIGN CHOICE (log 1, unsafe): the spec gives none (`RESET_X`,
`RESET_F`, 10_state.md rule R33). -/
def Config.resetRegister : Word := 0x00000000#32

/-- The reset value of the pc. DESIGN CHOICE (log 2, unsafe): the spec gives none (`RESET_PC`, rule R33). -/
def Config.resetPc : Word := 0x00000000#32

/-- What a byte of memory reads as that the state does not list. DESIGN CHOICE (log 3, unsafe at reset): the spec gives no
contents (`MEM_INIT`, rule R33). -/
def Config.unlistedByte : Byte := 0x00#8

/-- The free part of `FMA_NAN`, the pattern of a NaN result (48_fp_fma.md rule R216; 92_eei_decisions.md D16, OPEN): bit 22
is its sign, bits 21:0 its payload below the quiet bit. FREE VALUE (log 5, safe): it has no body, so no proof can use a
value of it. -/
opaque Config.fmaNanFree : BitVec 23

end Sys2Proof
end

