-- ==== Sys2Proof/Machine/State.lean ====
section
/-! DEFINITION. The state of the machine (10_state.md rule R20), the outcome of a step (60_exceptions.md rule R300), the
reasons a step can stop, and the state after reset (10_state.md rule R33). -/

namespace Sys2Proof.Machine

/-- How a step ended (rule R300), with the information it carries. -/
inductive StepOutcome where
  /-- The instruction completed and made all its state changes. -/
  | retired
  /-- The fetched word matches no row of the decode table (rule R301). -/
  | invalidInstruction (pc word : Word)
  /-- The instruction is ecall (rule R302). -/
  | environmentCall (pc : Word)
  /-- The instruction is ebreak (rule R303). -/
  | breakpoint (pc : Word)
  deriving DecidableEq, Repr

/-- Memory: the bytes that differ from `Config.unlistedByte`, each with its address, addresses strictly rising
(20_memory.md rule R40: one byte at every 32-bit address). -/
abbrev Memory := List Host.Cell

/-- The canonical form: every address is above `low` (when one is given) and below 2^32, addresses rise strictly, and no
listed byte equals what an unlisted address reads as. -/
def Memory.wfAbove : Option Nat → Memory → Bool
  | _, [] => true
  | low, (a, b) :: rest =>
    (match low with
      | none => true
      | some l => decide (l < a)) &&
    decide (a < 2 ^ 32) && b != Config.unlistedByte && Memory.wfAbove (some a) rest

/-- The memory is in its canonical form. -/
def Memory.wf (m : Memory) : Bool := Memory.wfAbove none m

/-- The whole state. `x`, `f`, `pc` and `mem` are the spec's (rule R20); `outcome` is the model's own field, where a step
leaves the outcome it ended with (rule R8; assumption log 6). x0 is not stored (rule R22): slot k of `x` is x(k+1). -/
structure State where
  x       : Vector Word 31
  f       : Vector Word 32
  pc      : Word
  mem     : Memory
  outcome : StepOutcome
  deriving DecidableEq, Repr

/-- Why the machine stops. The hardware itself has no fault (rules R306, R307). -/
inductive Fault where
  /-- Raised by `step` alone, in a state whose last step ended with the non-retiring outcome `o`: the run has ended there and
  the core does not run until the session acts (rules R313, R314). Safe: nothing can be proved about a session's action. -/
  | runEnded (o : StepOutcome)
  deriving DecidableEq, Repr

/-- Why an instruction has no meaning. -/
inductive Refusal where
  /-- Raised by an arm of `exec` for an instruction that has no meaning yet. Safe. No arm of this model raises it. -/
  | notModelled (mnemonic : String)
  deriving DecidableEq, Repr

/-- The machine right after reset. The spec states no value but x0 = 0 (rule R33, rule R340): registers and pc hold the
values `Config` names (log 1, 2), no byte is listed (log 3), and no step has ended other than by retiring (log 6). What a
session launches instead is `State.launch`. -/
def State.reset : State where
  x       := Vector.replicate 31 Config.resetRegister
  f       := Vector.replicate 32 Config.resetRegister
  pc      := Config.resetPc
  mem     := []
  outcome := .retired

end Sys2Proof.Machine
end

