-- ==== Sys2Proof/Machine/Ops.lean ====
section
/-! DEFINITION. The named operations over registers, pc and memory (00_scope.md rule R11; 10_state.md rule R32; 20_memory.md
rule R41), the end of a retiring step, and the one operation that ends a step with a non-retiring outcome
(60_exceptions.md rule R304), with the return from it beside it. -/

namespace Sys2Proof.Machine

/-! ### Registers (10_state.md rules R22, R26, R32) -/

/-- `x[i]`: x0 reads as zero (rule R22). -/
def State.readInt (s : State) (i : RegIdx) : Word :=
  if i = 0#5 then 0#32 else s.x[i.toNat - 1]'(by have := i.isLt; omega)

/-- `x[i] <- v`: a write of x0 is discarded (rule R22). -/
def State.writeInt (s : State) (i : RegIdx) (v : Word) : State :=
  { s with x := if i = 0#5 then s.x else s.x.set (i.toNat - 1) v (by have := i.isLt; omega) }

/-- `f[i]`: no index is hard-wired (rule R26). -/
def State.readFloat (s : State) (i : RegIdx) : Word := s.f[i.toNat]'i.isLt

/-- `f[i] <- v` (rule R26). -/
def State.writeFloat (s : State) (i : RegIdx) (v : Word) : State := { s with f := s.f.set i.toNat v i.isLt }

/-! ### One byte of memory (20_memory.md rule R40) -/

/-- The byte at an address: the listed one, or what an unlisted address reads as. -/
def Memory.read : Memory → Nat → Byte
  | [], _ => Config.unlistedByte
  | (k, b) :: rest, a => if k = a then b else Memory.read rest a

/-- The memory with one byte changed, in canonical form again: the entry stands at its place by address, and is left out when
the byte is what an unlisted address reads as. -/
def Memory.write : Memory → Nat → Byte → Memory
  | [], a, v => if v = Config.unlistedByte then [] else [(a, v)]
  | (k, b) :: rest, a, v =>
    if k < a then (k, b) :: Memory.write rest a v
    else
      let above := if k = a then rest else (k, b) :: rest
      if v = Config.unlistedByte then above else (a, v) :: above

/-- `M[a]`, the byte at address `a` (rule R43). -/
def State.byteAt (s : State) (a : Word) : Byte := s.mem.read a.toNat

/-- `M[a] <- v` (rule R44). -/
def State.setByte (s : State) (a : Word) (v : Byte) : State := { s with mem := s.mem.write a.toNat v }

/-! ### MemRead and MemWrite: little-endian, any alignment, each byte address modulo 2^32 (rules R42 to R46) -/

/-- `MemRead(a, 1)`. -/
def State.memRead1 (s : State) (a : Word) : Byte := s.byteAt a

/-- `MemRead(a, 2)` = {M[a+1], M[a]}. -/
def State.memRead2 (s : State) (a : Word) : Half := s.byteAt (a + 1#32) ++ s.byteAt a

/-- `MemRead(a, 4)` = {M[a+3], M[a+2], M[a+1], M[a]}. -/
def State.memRead4 (s : State) (a : Word) : Word :=
  s.byteAt (a + 3#32) ++ s.byteAt (a + 2#32) ++ s.byteAt (a + 1#32) ++ s.byteAt a

/-- `MemWrite(a, 1, v)`. -/
def State.memWrite1 (s : State) (a : Word) (v : Byte) : State := s.setByte a v

/-- `MemWrite(a, 2, v)`: M[a+k] <- v[8k+7:8k] for k = 0, 1. -/
def State.memWrite2 (s : State) (a : Word) (v : Half) : State :=
  (s.setByte a (v.extractLsb' 0 8)).setByte (a + 1#32) (v.extractLsb' 8 8)

/-- `MemWrite(a, 4, v)`: M[a+k] <- v[8k+7:8k] for k = 0 .. 3. -/
def State.memWrite4 (s : State) (a : Word) (v : Word) : State :=
  (((s.setByte a (v.extractLsb' 0 8)).setByte (a + 1#32) (v.extractLsb' 8 8)).setByte (a + 2#32)
    (v.extractLsb' 16 8)).setByte (a + 3#32) (v.extractLsb' 24 8)

/-! ### The eight interface operations of the load/store unit (rule R41) -/

/-- sext_32(MemRead(a, 1)). -/
def State.loadByte (s : State) (a : Word) : Word := (s.memRead1 a).signExtend 32
/-- zext_32(MemRead(a, 1)). -/
def State.loadByteUnsigned (s : State) (a : Word) : Word := (s.memRead1 a).zeroExtend 32
/-- sext_32(MemRead(a, 2)). -/
def State.loadHalf (s : State) (a : Word) : Word := (s.memRead2 a).signExtend 32
/-- zext_32(MemRead(a, 2)). -/
def State.loadHalfUnsigned (s : State) (a : Word) : Word := (s.memRead2 a).zeroExtend 32
/-- MemRead(a, 4). -/
def State.loadWord (s : State) (a : Word) : Word := s.memRead4 a
/-- MemWrite(a, 1, v[7:0]). -/
def State.storeByte (s : State) (a v : Word) : State := s.memWrite1 a (v.extractLsb' 0 8)
/-- MemWrite(a, 2, v[15:0]). -/
def State.storeHalf (s : State) (a v : Word) : State := s.memWrite2 a (v.extractLsb' 0 16)
/-- MemWrite(a, 4, v). -/
def State.storeWord (s : State) (a v : Word) : State := s.memWrite4 a v

/-! ### How a step ends -/

/-- The step retires and the next one is at `target` (00_scope.md rule R11, `pc <- t`; 60_exceptions.md rule R300). -/
def State.retire (s : State) (target : Word) : State := { s with pc := target, outcome := .retired }

/-- The step retires and the pc advances by 4, modulo 2^32 (10_state.md rule R25). -/
def State.advance (s : State) : State := s.retire (s.pc + 4#32)

/-- `x[rd] <- v; pc <- pc + 4`: the end of every integer instruction that neither stores nor jumps. -/
def State.finishInt (s : State) (rd : RegIdx) (v : Word) : Host.Outcome State Fault Refusal :=
  .next (s.writeInt rd v).advance

/-- `f[rd] <- v; pc <- pc + 4`: the end of every fused multiply-add. -/
def State.finishFloat (s : State) (rd : RegIdx) (v : Word) : Host.Outcome State Fault Refusal :=
  .next (s.writeFloat rd v).advance

/-- `raise <Outcome>(info)`: the step ends with a non-retiring outcome and changes no register, no byte of memory and not the
pc (60_exceptions.md rules R304, R312). Nothing is saved and no handler is entered: the core has none. -/
def State.raise (s : State) (o : StepOutcome) : State := { s with outcome := o }

/-- The codes of the outcome table (rule R300): labels, which no register holds (92_eei_decisions.md D6). -/
def StepOutcome.code : StepOutcome → Nat
  | .retired => 0
  | .invalidInstruction _ _ => 1
  | .environmentCall _ => 2
  | .breakpoint _ => 3

/-- The return from a non-retiring outcome: the session has set the pc to `target` and the core runs again (rule R313). -/
def State.resumeAt (s : State) (target : Word) : State := { s with pc := target, outcome := .retired }

end Sys2Proof.Machine
end

