-- ==== Sys2Proof/Machine/Operands.lean ====
section
/-! DEFINITION. The operand forms: effective addresses, shift amounts and control-transfer targets. All sums are modulo
2^32 (10_state.md rule R25; 20_memory.md rule R46). -/

namespace Sys2Proof.Machine

/-- `ea = x[rs1] + imm`, the one addressing mode of loads and stores (42_loads.md rule R150; 43_stores.md rule R160). -/
def State.effectiveAddress (s : State) (rs1 : RegIdx) (imm : Word) : Word := s.readInt rs1 + imm

/-- The shift amount of a register form: x[rs2][4:0] (40_integer_alu.md rule R120). -/
def State.shiftAmount (s : State) (rs2 : RegIdx) : BitVec 5 := (s.readInt rs2).extractLsb' 0 5

/-- The target of a taken branch and of jal: pc + imm, pc the address of the instruction itself (10_state.md rule R24). -/
def State.relativeTarget (s : State) (imm : Word) : Word := s.pc + imm

/-- The target of jalr: (x[rs1] + imm) & 0xFFFFFFFE (45_jumps.md rule R182). -/
def State.indirectTarget (s : State) (rs1 : RegIdx) (imm : Word) : Word := (s.readInt rs1 + imm) &&& 0xFFFFFFFE#32

/-- The link value: the address of the instruction that follows, pc + 4 (45_jumps.md rule R180). -/
def State.linkAddress (s : State) : Word := s.pc + 4#32

end Sys2Proof.Machine
end

