-- ==== Sys2Proof/Machine/Alu.lean ====
section
/-! DEFINITION. The integer ALU instructions (40_integer_alu.md rules R100 to R123). Each reads its sources, writes x[rd] and
retires with pc + 4; none has another outcome (rule R100). -/

namespace Sys2Proof.Machine

/-- `v << n`, zeros shifted in at the bottom (rule R103). -/
def shiftLeft (v : Word) (n : BitVec 5) : Word := v <<< n.toNat

/-- `v >>u n`, zeros shifted in at the top (rule R107). -/
def shiftRightLogical (v : Word) (n : BitVec 5) : Word := v >>> n.toNat

/-- `v >>s n`, copies of bit 31 shifted in at the top (rule R108). -/
def shiftRightArithmetic (v : Word) (n : BitVec 5) : Word := v.sshiftRight n.toNat

/-! ### Register-register (rules R101 to R110) -/

/-- `add rd, rs1, rs2` (rule R101). -/
def execAdd (rd rs1 rs2 : RegIdx) (s : State) : Host.Outcome State Fault Refusal :=
  s.finishInt rd (s.readInt rs1 + s.readInt rs2)

/-- `sub rd, rs1, rs2` (rule R102). -/
def execSub (rd rs1 rs2 : RegIdx) (s : State) : Host.Outcome State Fault Refusal :=
  s.finishInt rd (s.readInt rs1 - s.readInt rs2)

/-- `sll rd, rs1, rs2` (rule R103). -/
def execSll (rd rs1 rs2 : RegIdx) (s : State) : Host.Outcome State Fault Refusal :=
  s.finishInt rd (shiftLeft (s.readInt rs1) (s.shiftAmount rs2))

/-- `slt rd, rs1, rs2` (rule R104). -/
def execSlt (rd rs1 rs2 : RegIdx) (s : State) : Host.Outcome State Fault Refusal :=
  s.finishInt rd (flagWord (ltSigned (s.readInt rs1) (s.readInt rs2)))

/-- `sltu rd, rs1, rs2` (rule R105). -/
def execSltu (rd rs1 rs2 : RegIdx) (s : State) : Host.Outcome State Fault Refusal :=
  s.finishInt rd (flagWord (ltUnsigned (s.readInt rs1) (s.readInt rs2)))

/-- `xor rd, rs1, rs2` (rule R106). -/
def execXor (rd rs1 rs2 : RegIdx) (s : State) : Host.Outcome State Fault Refusal :=
  s.finishInt rd (s.readInt rs1 ^^^ s.readInt rs2)

/-- `srl rd, rs1, rs2` (rule R107). -/
def execSrl (rd rs1 rs2 : RegIdx) (s : State) : Host.Outcome State Fault Refusal :=
  s.finishInt rd (shiftRightLogical (s.readInt rs1) (s.shiftAmount rs2))

/-- `sra rd, rs1, rs2` (rule R108). -/
def execSra (rd rs1 rs2 : RegIdx) (s : State) : Host.Outcome State Fault Refusal :=
  s.finishInt rd (shiftRightArithmetic (s.readInt rs1) (s.shiftAmount rs2))

/-- `or rd, rs1, rs2` (rule R109). -/
def execOr (rd rs1 rs2 : RegIdx) (s : State) : Host.Outcome State Fault Refusal :=
  s.finishInt rd (s.readInt rs1 ||| s.readInt rs2)

/-- `and rd, rs1, rs2` (rule R110). -/
def execAnd (rd rs1 rs2 : RegIdx) (s : State) : Host.Outcome State Fault Refusal :=
  s.finishInt rd (s.readInt rs1 &&& s.readInt rs2)

/-! ### Register-immediate (rules R111 to R119): the sign-extended immediate, or shamt, in place of x[rs2] (rule R123) -/

/-- `addi rd, rs1, imm` (rule R111). -/
def execAddi (rd rs1 : RegIdx) (imm : Word) (s : State) : Host.Outcome State Fault Refusal :=
  s.finishInt rd (s.readInt rs1 + imm)

/-- `slti rd, rs1, imm` (rule R112). -/
def execSlti (rd rs1 : RegIdx) (imm : Word) (s : State) : Host.Outcome State Fault Refusal :=
  s.finishInt rd (flagWord (ltSigned (s.readInt rs1) imm))

/-- `sltiu rd, rs1, imm` (rule R113). -/
def execSltiu (rd rs1 : RegIdx) (imm : Word) (s : State) : Host.Outcome State Fault Refusal :=
  s.finishInt rd (flagWord (ltUnsigned (s.readInt rs1) imm))

/-- `xori rd, rs1, imm` (rule R114). -/
def execXori (rd rs1 : RegIdx) (imm : Word) (s : State) : Host.Outcome State Fault Refusal :=
  s.finishInt rd (s.readInt rs1 ^^^ imm)

/-- `ori rd, rs1, imm` (rule R115). -/
def execOri (rd rs1 : RegIdx) (imm : Word) (s : State) : Host.Outcome State Fault Refusal :=
  s.finishInt rd (s.readInt rs1 ||| imm)

/-- `andi rd, rs1, imm` (rule R116). -/
def execAndi (rd rs1 : RegIdx) (imm : Word) (s : State) : Host.Outcome State Fault Refusal :=
  s.finishInt rd (s.readInt rs1 &&& imm)

/-- `slli rd, rs1, shamt` (rule R117). -/
def execSlli (rd rs1 : RegIdx) (shamt : BitVec 5) (s : State) : Host.Outcome State Fault Refusal :=
  s.finishInt rd (shiftLeft (s.readInt rs1) shamt)

/-- `srli rd, rs1, shamt` (rule R118). -/
def execSrli (rd rs1 : RegIdx) (shamt : BitVec 5) (s : State) : Host.Outcome State Fault Refusal :=
  s.finishInt rd (shiftRightLogical (s.readInt rs1) shamt)

/-- `srai rd, rs1, shamt` (rule R119). -/
def execSrai (rd rs1 : RegIdx) (shamt : BitVec 5) (s : State) : Host.Outcome State Fault Refusal :=
  s.finishInt rd (shiftRightArithmetic (s.readInt rs1) shamt)

end Sys2Proof.Machine
end

