-- ==== Sys2Proof/Machine/Branches.lean ====
section
/-! DEFINITION. The conditional branches (44_branches.md rules R170 to R176). No branch writes a register or memory, checks
its target or can raise anything. -/

namespace Sys2Proof.Machine

/-- The end of every branch: to pc + imm when the predicate holds, else to pc + 4 (rule R170). -/
def State.branch (s : State) (taken : Bool) (imm : Word) : Host.Outcome State Fault Refusal :=
  .next (s.retire (if taken then s.relativeTarget imm else s.pc + 4#32))

/-- `beq rs1, rs2, offset` (rule R171). -/
def execBeq (rs1 rs2 : RegIdx) (imm : Word) (s : State) : Host.Outcome State Fault Refusal :=
  s.branch (s.readInt rs1 == s.readInt rs2) imm

/-- `bne rs1, rs2, offset` (rule R172). -/
def execBne (rs1 rs2 : RegIdx) (imm : Word) (s : State) : Host.Outcome State Fault Refusal :=
  s.branch (s.readInt rs1 != s.readInt rs2) imm

/-- `blt rs1, rs2, offset` (rule R173). -/
def execBlt (rs1 rs2 : RegIdx) (imm : Word) (s : State) : Host.Outcome State Fault Refusal :=
  s.branch (ltSigned (s.readInt rs1) (s.readInt rs2)) imm

/-- `bge rs1, rs2, offset` (rule R174). -/
def execBge (rs1 rs2 : RegIdx) (imm : Word) (s : State) : Host.Outcome State Fault Refusal :=
  s.branch (!ltSigned (s.readInt rs1) (s.readInt rs2)) imm

/-- `bltu rs1, rs2, offset` (rule R175). -/
def execBltu (rs1 rs2 : RegIdx) (imm : Word) (s : State) : Host.Outcome State Fault Refusal :=
  s.branch (ltUnsigned (s.readInt rs1) (s.readInt rs2)) imm

/-- `bgeu rs1, rs2, offset` (rule R176). -/
def execBgeu (rs1 rs2 : RegIdx) (imm : Word) (s : State) : Host.Outcome State Fault Refusal :=
  s.branch (!ltUnsigned (s.readInt rs1) (s.readInt rs2)) imm

end Sys2Proof.Machine
end

