-- ==== Sys2Proof/Machine/Binary32.lean ====
section
/-! DEFINITION. IEEE 754 binary32 patterns and the fused multiply-add on them (48_fp_fma.md rules R210 to R219), in exact
integer arithmetic: a finite value is an integer number of 2^-149, a product or a sum an integer number of 2^-298, so
nothing is rounded before `round32`. -/

namespace Sys2Proof.Machine

/-! ### The format (rule R210) -/

/-- The sign bit, v[31]. -/
def signOf (v : Word) : Bool := v.getLsbD 31
/-- The biased exponent, e = unsigned(v[30:23]). -/
def exponentOf (v : Word) : Nat := (v.extractLsb' 23 8).toNat
/-- The fraction, m = unsigned(v[22:0]). -/
def fractionOf (v : Word) : Nat := (v.extractLsb' 0 23).toNat

/-- The classes of rule R210. -/
inductive FpClass where
  | zero | subnormal | normal | infinity | quietNaN | signallingNaN
  deriving DecidableEq, Repr

/-- The class of a pattern (rule R210). -/
def classOf (v : Word) : FpClass :=
  if exponentOf v = 0 then (if fractionOf v = 0 then .zero else .subnormal)
  else if exponentOf v = 255 then
    (if fractionOf v = 0 then .infinity else if v.getLsbD 22 then .quietNaN else .signallingNaN)
  else .normal

/-- e = 255 and m != 0. A signalling NaN is treated like a quiet one (rule R216). -/
def isNaN (v : Word) : Bool := exponentOf v == 255 && fractionOf v != 0
/-- e = 255 and m = 0. -/
def isInfinity (v : Word) : Bool := exponentOf v == 255 && fractionOf v == 0
/-- e = 0 and m = 0. -/
def isZero (v : Word) : Bool := exponentOf v == 0 && fractionOf v == 0
/-- e != 255: zero, subnormal or normal. -/
def isFinite (v : Word) : Bool := exponentOf v != 255

/-- The magnitude of a finite pattern, counted in 2^-149: m when e = 0, else (2^23 + m) * 2^(e-1) (rule R210). -/
def magnitudeUnits (v : Word) : Nat :=
  if exponentOf v = 0 then fractionOf v else (2 ^ 23 + fractionOf v) * 2 ^ (exponentOf v - 1)

/-- The value of a finite pattern, counted in 2^-149 (rule R210). -/
def valueUnits (v : Word) : Int := if signOf v then -(magnitudeUnits v : Int) else magnitudeUnits v

/-- The pattern with the sign bit inverted (rule R213). -/
def fneg (v : Word) : Word := v ^^^ 0x80000000#32

/-- The zero with a sign (rule R210). -/
def zeroWith (negative : Bool) : Word := if negative then 0x80000000#32 else 0x00000000#32
/-- The infinity with a sign (rule R210). -/
def infinityWith (negative : Bool) : Word := if negative then 0xFF800000#32 else 0x7F800000#32

/-- `FMA_NAN`, the pattern of every NaN result: some quiet NaN (e = 255, bit 22 = 1), its sign and payload free (rule R216,
D16; log 5). -/
def fmaNaN : Word :=
  Config.fmaNanFree.extractLsb' 22 1 ++ 0xFF#8 ++ 0b1#1 ++ Config.fmaNanFree.extractLsb' 0 22

/-! ### Rounding (rule R215) -/

/-- q = max(floor(log2 |r|), -126) - 23 for |r| = n * 2^-298: representable magnitudes near r are the multiples of 2^q. -/
def quantumExponent (n : Nat) : Int := max ((n.log2 : Int) - 298) (-126) - 23

/-- The integer nearest to n / 2^k; of two equally near ones, the even one. -/
def divideToNearestEven (n k : Nat) : Nat :=
  let low := n / 2 ^ k
  let rest := n % 2 ^ k
  if 2 * rest > 2 ^ k ∨ (2 * rest = 2 ^ k ∧ low % 2 = 1) then low + 1 else low

/-- The bits 30:0 of the magnitude n * 2^-298 rounded to nearest even: the multiple of 2^q it rounds to, packed with the
exponent q implies; a carry out of the 24 significant bits moves into the exponent field, and a magnitude of 2^128 or more
is the infinity. -/
def roundMagnitude (n : Nat) : Nat :=
  let q := quantumExponent n
  let packed := (q + 149).toNat * 2 ^ 23 + divideToNearestEven n (q + 298).toNat
  if packed ≥ 0x7F800000 then 0x7F800000 else packed

/-- `round32(r)`, r = n * 2^-298 not zero: the rounded magnitude with r's sign (rule R215). -/
def round32 (n : Int) : Word := BitVec.ofNat 32 ((if n < 0 then 2 ^ 31 else 0) + roundMagnitude n.natAbs)

/-! ### The fused operation (rules R214, R216, R217) -/

/-- The exact value a * b + c of finite patterns, counted in 2^-298 (rule R214). -/
def fusedExact (a b c : Word) : Int := valueUnits a * valueUnits b + valueUnits c * 2 ^ 149

/-- The sign of an exactly zero result: that of a zero product and a zero addend with one common sign, else + (rule R217). -/
def zeroResult (a b c : Word) : Word :=
  if (isZero a || isZero b) && isZero c && (signOf a ^^ signOf b) == signOf c then zeroWith (signOf c) else zeroWith false

/-- `fma32(a, b, c)`: a * b + c with a single rounding (rule R214). -/
def fma32 (a b c : Word) : Word :=
  let ps := signOf a ^^ signOf b
  if isNaN a || isNaN b || isNaN c then fmaNaN
  else if isInfinity a || isInfinity b then
    if isZero a || isZero b then fmaNaN
    else if isInfinity c && signOf c != ps then fmaNaN
    else infinityWith ps
  else if isInfinity c then c
  else if fusedExact a b c = 0 then zeroResult a b c
  else round32 (fusedExact a b c)

end Sys2Proof.Machine
end

