-- ==== Sys2Proof/Machine/Fma.lean ====
section
/-! DEFINITION. The four fused multiply-add instructions (48_fp_fma.md rules R220 to R223). The negated forms negate an operand
before the one rounding, not the result after it (90_conflicts.md C2). -/

namespace Sys2Proof.Machine

/-- `fmadd.s fd, fs1, fs2, fs3` (rule R220): rs1 * rs2 + rs3. -/
def execFmaddS (rd rs1 rs2 rs3 : RegIdx) (s : State) : Host.Outcome State Fault Refusal :=
  s.finishFloat rd (fma32 (s.readFloat rs1) (s.readFloat rs2) (s.readFloat rs3))

/-- `fmsub.s fd, fs1, fs2, fs3` (rule R221): rs1 * rs2 - rs3. -/
def execFmsubS (rd rs1 rs2 rs3 : RegIdx) (s : State) : Host.Outcome State Fault Refusal :=
  s.finishFloat rd (fma32 (s.readFloat rs1) (s.readFloat rs2) (fneg (s.readFloat rs3)))

/-- `fnmsub.s fd, fs1, fs2, fs3` (rule R222): -(rs1 * rs2) + rs3. -/
def execFnmsubS (rd rs1 rs2 rs3 : RegIdx) (s : State) : Host.Outcome State Fault Refusal :=
  s.finishFloat rd (fma32 (fneg (s.readFloat rs1)) (s.readFloat rs2) (s.readFloat rs3))

/-- `fnmadd.s fd, fs1, fs2, fs3` (rule R223): -(rs1 * rs2) - rs3. -/
def execFnmaddS (rd rs1 rs2 rs3 : RegIdx) (s : State) : Host.Outcome State Fault Refusal :=
  s.finishFloat rd (fma32 (fneg (s.readFloat rs1)) (s.readFloat rs2) (fneg (s.readFloat rs3)))

end Sys2Proof.Machine
end

