-- ==== Sys2Proof/Machine/Jumps.lean ====
section
/-! DEFINITION. The unconditional jumps (45_jumps.md rules R180 to R182). The target is computed from the old x[rs1] and the
pc of the jump itself, before the link is written. -/

namespace Sys2Proof.Machine

/-- `jal rd, offset` (rule R181). -/
def execJal (rd : RegIdx) (imm : Word) (s : State) : Host.Outcome State Fault Refusal :=
  .next ((s.writeInt rd s.linkAddress).retire (s.relativeTarget imm))

/-- `jalr rd, imm(rs1)` (rule R182). -/
def execJalr (rd rs1 : RegIdx) (imm : Word) (s : State) : Host.Outcome State Fault Refusal :=
  .next ((s.writeInt rd s.linkAddress).retire (s.indirectTarget rs1 imm))

end Sys2Proof.Machine
end

