-- ==== Sys2Proof/Machine/Loads.lean ====
section
/-! DEFINITION. The loads (42_loads.md rules R150 to R156): any alignment, no fault; with rd = x0 the value read is
discarded. -/

namespace Sys2Proof.Machine

/-- `lb rd, imm(rs1)` (rule R151). -/
def execLb (rd rs1 : RegIdx) (imm : Word) (s : State) : Host.Outcome State Fault Refusal :=
  s.finishInt rd (s.loadByte (s.effectiveAddress rs1 imm))

/-- `lh rd, imm(rs1)` (rule R152). -/
def execLh (rd rs1 : RegIdx) (imm : Word) (s : State) : Host.Outcome State Fault Refusal :=
  s.finishInt rd (s.loadHalf (s.effectiveAddress rs1 imm))

/-- `lw rd, imm(rs1)` (rule R153). -/
def execLw (rd rs1 : RegIdx) (imm : Word) (s : State) : Host.Outcome State Fault Refusal :=
  s.finishInt rd (s.loadWord (s.effectiveAddress rs1 imm))

/-- `lbu rd, imm(rs1)` (rule R154). -/
def execLbu (rd rs1 : RegIdx) (imm : Word) (s : State) : Host.Outcome State Fault Refusal :=
  s.finishInt rd (s.loadByteUnsigned (s.effectiveAddress rs1 imm))

/-- `lhu rd, imm(rs1)` (rule R155). -/
def execLhu (rd rs1 : RegIdx) (imm : Word) (s : State) : Host.Outcome State Fault Refusal :=
  s.finishInt rd (s.loadHalfUnsigned (s.effectiveAddress rs1 imm))

end Sys2Proof.Machine
end

