-- ==== Sys2Proof/Machine/MulDiv.lean ====
section
/-! DEFINITION. Multiply, divide and remainder (41_muldiv.md rules R130 to R140). Each reads its sources, writes x[rd] and
retires with pc + 4; division by zero and signed overflow have defined results and raise nothing (rule R130). -/

namespace Sys2Proof.Machine

/-- The low 32 bits of an exact product, T[31:0] (rule R140). -/
def productLow (p : Int) : Word := (BitVec.ofInt 64 p).extractLsb' 0 32

/-- The high 32 bits of an exact product, T[63:32] (rule R140). -/
def productHigh (p : Int) : Word := (BitVec.ofInt 64 p).extractLsb' 32 32

/-- The signed quotient, rounded toward zero, with the rows of rule R139 for a zero divisor and for -2^31 / -1. -/
def quotientSigned (a b : Word) : Word :=
  if b = 0#32 then 0xFFFFFFFF#32
  else if a = 0x80000000#32 ∧ b = 0xFFFFFFFF#32 then 0x80000000#32
  else BitVec.ofInt 32 (a.toInt.tdiv b.toInt)

/-- The unsigned quotient (rule R139). -/
def quotientUnsigned (a b : Word) : Word :=
  if b = 0#32 then 0xFFFFFFFF#32 else BitVec.ofNat 32 (a.toNat / b.toNat)

/-- The signed remainder, a - q * b for the quotient rounded toward zero (rule R139). -/
def remainderSigned (a b : Word) : Word :=
  if b = 0#32 then a
  else if a = 0x80000000#32 ∧ b = 0xFFFFFFFF#32 then 0x00000000#32
  else BitVec.ofInt 32 (a.toInt - a.toInt.tdiv b.toInt * b.toInt)

/-- The unsigned remainder (rule R139). -/
def remainderUnsigned (a b : Word) : Word :=
  if b = 0#32 then a else BitVec.ofNat 32 (a.toNat % b.toNat)

/-- `mul rd, rs1, rs2` (rule R131). -/
def execMul (rd rs1 rs2 : RegIdx) (s : State) : Host.Outcome State Fault Refusal :=
  s.finishInt rd (productLow ((s.readInt rs1).toNat * (s.readInt rs2).toNat))

/-- `mulh rd, rs1, rs2` (rule R132). -/
def execMulh (rd rs1 rs2 : RegIdx) (s : State) : Host.Outcome State Fault Refusal :=
  s.finishInt rd (productHigh ((s.readInt rs1).toInt * (s.readInt rs2).toInt))

/-- `mulhsu rd, rs1, rs2` (rule R133), x[rs1] signed and x[rs2] unsigned. -/
def execMulhsu (rd rs1 rs2 : RegIdx) (s : State) : Host.Outcome State Fault Refusal :=
  s.finishInt rd (productHigh ((s.readInt rs1).toInt * (s.readInt rs2).toNat))

/-- `mulhu rd, rs1, rs2` (rule R134). -/
def execMulhu (rd rs1 rs2 : RegIdx) (s : State) : Host.Outcome State Fault Refusal :=
  s.finishInt rd (productHigh ((s.readInt rs1).toNat * (s.readInt rs2).toNat))

/-- `div rd, rs1, rs2` (rule R135). -/
def execDiv (rd rs1 rs2 : RegIdx) (s : State) : Host.Outcome State Fault Refusal :=
  s.finishInt rd (quotientSigned (s.readInt rs1) (s.readInt rs2))

/-- `divu rd, rs1, rs2` (rule R136). -/
def execDivu (rd rs1 rs2 : RegIdx) (s : State) : Host.Outcome State Fault Refusal :=
  s.finishInt rd (quotientUnsigned (s.readInt rs1) (s.readInt rs2))

/-- `rem rd, rs1, rs2` (rule R137). -/
def execRem (rd rs1 rs2 : RegIdx) (s : State) : Host.Outcome State Fault Refusal :=
  s.finishInt rd (remainderSigned (s.readInt rs1) (s.readInt rs2))

/-- `remu rd, rs1, rs2` (rule R138). -/
def execRemu (rd rs1 rs2 : RegIdx) (s : State) : Host.Outcome State Fault Refusal :=
  s.finishInt rd (remainderUnsigned (s.readInt rs1) (s.readInt rs2))

end Sys2Proof.Machine
end

