-- ==== Sys2Proof/Machine/Stores.lean ====
section
/-! DEFINITION. The stores (43_stores.md rules R160 to R163): the low bytes of x[rs2], any alignment, no fault. -/

namespace Sys2Proof.Machine

/-- `sb rs2, imm(rs1)` (rule R161). -/
def execSb (rs1 rs2 : RegIdx) (imm : Word) (s : State) : Host.Outcome State Fault Refusal :=
  .next (s.storeByte (s.effectiveAddress rs1 imm) (s.readInt rs2)).advance

/-- `sh rs2, imm(rs1)` (rule R162). -/
def execSh (rs1 rs2 : RegIdx) (imm : Word) (s : State) : Host.Outcome State Fault Refusal :=
  .next (s.storeHalf (s.effectiveAddress rs1 imm) (s.readInt rs2)).advance

/-- `sw rs2, imm(rs1)` (rule R163). -/
def execSw (rs1 rs2 : RegIdx) (imm : Word) (s : State) : Host.Outcome State Fault Refusal :=
  .next (s.storeWord (s.effectiveAddress rs1 imm) (s.readInt rs2)).advance

end Sys2Proof.Machine
end

