-- ==== Sys2Proof/Machine/System.lean ====
section
/-! DEFINITION. The system instructions (47_system.md rules R200 to R204). ecall and ebreak end their step with a
non-retiring outcome and change nothing else; what the session then does is no part of the core (rule R312, log 6). -/

namespace Sys2Proof.Machine

/-- `ecall` (rule R201): outcome EnvironmentCall(pc). -/
def execEcall (s : State) : Host.Outcome State Fault Refusal :=
  .next (s.raise (.environmentCall s.pc))

/-- `ebreak` (rule R202): outcome Breakpoint(pc). -/
def execEbreak (s : State) : Host.Outcome State Fault Refusal :=
  .next (s.raise (.breakpoint s.pc))

/-- `fence` (rule R203): a memory-ordering no-op, since nothing is ever out of order. -/
def execFence (s : State) : Host.Outcome State Fault Refusal :=
  .next s.advance

/-- `fence.i` (rule R204): fetch already sees every earlier store. -/
def execFenceI (s : State) : Host.Outcome State Fault Refusal :=
  .next s.advance

end Sys2Proof.Machine
end

