-- ==== Sys2Proof/Machine/Upper.lean ====
section
/-! DEFINITION. The upper-immediate instructions (46_upper_immediate.md rules R190 to R192). -/

namespace Sys2Proof.Machine

/-- `lui rd, imm20` (rule R191). -/
def execLui (rd : RegIdx) (imm : Word) (s : State) : Host.Outcome State Fault Refusal :=
  s.finishInt rd imm

/-- `auipc rd, imm20` (rule R192), pc the address of the auipc itself. -/
def execAuipc (rd : RegIdx) (imm : Word) (s : State) : Host.Outcome State Fault Refusal :=
  s.finishInt rd (s.pc + imm)

end Sys2Proof.Machine
end

