-- ==== Sys2Proof/WellFormed.lean ====
section
/-! DEFINITION. Which operands an encoding can carry: the ranges of 30_encoding.md rules R63 to R67, as rule R70 repeats
them for re-encoding. Register indices and shift amounts are 5-bit fields, so every value of them is in range. -/

namespace Sys2Proof

/-- The I and S immediates: -2048 .. 2047 (rules R63, R64). -/
def immIsS12 (imm : Word) : Bool := -2048 ≤ imm.toInt && imm.toInt ≤ 2047

/-- The B immediate: even, -4096 .. 4094 (rule R65). -/
def immIsB13 (imm : Word) : Bool := imm.toInt % 2 == 0 && -4096 ≤ imm.toInt && imm.toInt ≤ 4094

/-- The U immediate: the lower 12 bits are zero (rule R66). -/
def immIsU20 (imm : Word) : Bool := imm.toNat % 4096 == 0

/-- The J immediate: even, -1048576 .. 1048574 (rule R67). -/
def immIsJ21 (imm : Word) : Bool := imm.toInt % 2 == 0 && -1048576 ≤ imm.toInt && imm.toInt ≤ 1048574

/-- The instruction's operands are ones its encoding can carry. -/
def Instr.wellFormed : Instr → Bool
  | .add _ _ _ | .sub _ _ _ | .sll _ _ _ | .slt _ _ _ | .sltu _ _ _ | .xor _ _ _ | .srl _ _ _ | .sra _ _ _ | .or _ _ _
  | .and _ _ _ => true
  | .addi _ _ imm | .slti _ _ imm | .sltiu _ _ imm | .xori _ _ imm | .ori _ _ imm | .andi _ _ imm => immIsS12 imm
  | .slli _ _ _ | .srli _ _ _ | .srai _ _ _ => true
  | .mul _ _ _ | .mulh _ _ _ | .mulhsu _ _ _ | .mulhu _ _ _ | .div _ _ _ | .divu _ _ _ | .rem _ _ _ | .remu _ _ _ => true
  | .lb _ _ imm | .lh _ _ imm | .lw _ _ imm | .lbu _ _ imm | .lhu _ _ imm => immIsS12 imm
  | .sb _ _ imm | .sh _ _ imm | .sw _ _ imm => immIsS12 imm
  | .beq _ _ imm | .bne _ _ imm | .blt _ _ imm | .bge _ _ imm | .bltu _ _ imm | .bgeu _ _ imm => immIsB13 imm
  | .jal _ imm => immIsJ21 imm
  | .jalr _ _ imm => immIsS12 imm
  | .lui _ imm | .auipc _ imm => immIsU20 imm
  | .ecall | .ebreak | .fence | .fenceI => true
  | .fmaddS _ _ _ _ | .fmsubS _ _ _ _ | .fnmsubS _ _ _ _ | .fnmaddS _ _ _ _ => true

end Sys2Proof
end

