-- ==== Sys2Proof/Decode.lean ====
section
/-! DEFINITION. Decoding and encoding: the format decoders (30_encoding.md rules R61 to R68), the decode table and its lookup
(rules R71 to R77), the re-encoding (rule R70), and the little-endian bytes of a word (20_memory.md rule R52). The numeric
values are the spec's adopted ones (92_eei_decisions.md D2; assumption log 9). -/

namespace Sys2Proof

/-! ### Fields of an instruction word (rules R61, R62, R68) -/

/-- opcode = word[6:0] (rule R61). -/
def opcodeOf (w : Word) : BitVec 7 := w.extractLsb' 0 7
/-- funct3 = word[14:12] (rule R61). -/
def funct3Of (w : Word) : BitVec 3 := w.extractLsb' 12 3
/-- funct7 = word[31:25] (rule R61). -/
def funct7Of (w : Word) : BitVec 7 := w.extractLsb' 25 7
/-- rd = word[11:7] (rule R62). -/
def rdOf (w : Word) : RegIdx := w.extractLsb' 7 5
/-- rs1 = word[19:15] (rule R62). -/
def rs1Of (w : Word) : RegIdx := w.extractLsb' 15 5
/-- rs2 = word[24:20] (rule R62). -/
def rs2Of (w : Word) : RegIdx := w.extractLsb' 20 5
/-- rs3 = word[31:27] (rule R68; D4, log 9). -/
def rs3Of (w : Word) : RegIdx := w.extractLsb' 27 5
/-- shamt = word[24:20] (rule R63). -/
def shamtOf (w : Word) : BitVec 5 := w.extractLsb' 20 5

/-! ### Immediates (rules R63 to R67), each a 32-bit vector -/

/-- I: word[31:20], sign-extended (rule R63). -/
def immI (w : Word) : Word := (w.extractLsb' 20 12).signExtend 32

/-- S: word[31:25] above word[11:7], sign-extended (rule R64). -/
def immS (w : Word) : Word := (w.extractLsb' 25 7 ++ w.extractLsb' 7 5).signExtend 32

/-- B: word[31], word[7], word[30:25], word[11:8] and a zero bit, sign-extended (rule R65). -/
def immB (w : Word) : Word :=
  (w.extractLsb' 31 1 ++ w.extractLsb' 7 1 ++ w.extractLsb' 25 6 ++ w.extractLsb' 8 4 ++ 0b0#1).signExtend 32

/-- U: word[31:12] above twelve zero bits (rule R66). -/
def immU (w : Word) : Word := w.extractLsb' 12 20 ++ 0#12

/-- J: word[31], word[19:12], word[20], word[30:21] and a zero bit, sign-extended (rule R67). -/
def immJ (w : Word) : Word :=
  (w.extractLsb' 31 1 ++ w.extractLsb' 12 8 ++ w.extractLsb' 20 1 ++ w.extractLsb' 21 10 ++ 0b0#1).signExtend 32

/-! ### The decode table (rules R71 to R76) -/

/-- One descriptor (rule R71): the mnemonic, the identifying bits and which bits are compared (rule R74), and the
instruction that the row's format decoder makes of a word. -/
structure TableRow where
  mnemonic : String
  bits     : Word
  mask     : Word
  build    : Word → Instr

/-- A word matches a row when `(w & mask) == match` (rule R74). -/
def rowMatches (w : Word) (r : TableRow) : Bool := w &&& r.mask == r.bits

/-- R-type ALU rows (opcode 0110011). -/
def rowsRegister : List TableRow :=
  [ ⟨"add", 0x00000033#32, 0xFE00707F#32, fun w => .add (rdOf w) (rs1Of w) (rs2Of w)⟩,
    ⟨"sub", 0x40000033#32, 0xFE00707F#32, fun w => .sub (rdOf w) (rs1Of w) (rs2Of w)⟩,
    ⟨"sll", 0x00001033#32, 0xFE00707F#32, fun w => .sll (rdOf w) (rs1Of w) (rs2Of w)⟩,
    ⟨"slt", 0x00002033#32, 0xFE00707F#32, fun w => .slt (rdOf w) (rs1Of w) (rs2Of w)⟩,
    ⟨"sltu", 0x00003033#32, 0xFE00707F#32, fun w => .sltu (rdOf w) (rs1Of w) (rs2Of w)⟩,
    ⟨"xor", 0x00004033#32, 0xFE00707F#32, fun w => .xor (rdOf w) (rs1Of w) (rs2Of w)⟩,
    ⟨"srl", 0x00005033#32, 0xFE00707F#32, fun w => .srl (rdOf w) (rs1Of w) (rs2Of w)⟩,
    ⟨"sra", 0x40005033#32, 0xFE00707F#32, fun w => .sra (rdOf w) (rs1Of w) (rs2Of w)⟩,
    ⟨"or", 0x00006033#32, 0xFE00707F#32, fun w => .or (rdOf w) (rs1Of w) (rs2Of w)⟩,
    ⟨"and", 0x00007033#32, 0xFE00707F#32, fun w => .and (rdOf w) (rs1Of w) (rs2Of w)⟩ ]

/-- I-type ALU rows (opcode 0010011). -/
def rowsImmediate : List TableRow :=
  [ ⟨"addi", 0x00000013#32, 0x0000707F#32, fun w => .addi (rdOf w) (rs1Of w) (immI w)⟩,
    ⟨"slti", 0x00002013#32, 0x0000707F#32, fun w => .slti (rdOf w) (rs1Of w) (immI w)⟩,
    ⟨"sltiu", 0x00003013#32, 0x0000707F#32, fun w => .sltiu (rdOf w) (rs1Of w) (immI w)⟩,
    ⟨"xori", 0x00004013#32, 0x0000707F#32, fun w => .xori (rdOf w) (rs1Of w) (immI w)⟩,
    ⟨"ori", 0x00006013#32, 0x0000707F#32, fun w => .ori (rdOf w) (rs1Of w) (immI w)⟩,
    ⟨"andi", 0x00007013#32, 0x0000707F#32, fun w => .andi (rdOf w) (rs1Of w) (immI w)⟩,
    ⟨"slli", 0x00001013#32, 0xFE00707F#32, fun w => .slli (rdOf w) (rs1Of w) (shamtOf w)⟩,
    ⟨"srli", 0x00005013#32, 0xFE00707F#32, fun w => .srli (rdOf w) (rs1Of w) (shamtOf w)⟩,
    ⟨"srai", 0x40005013#32, 0xFE00707F#32, fun w => .srai (rdOf w) (rs1Of w) (shamtOf w)⟩ ]

/-- Multiply, divide and remainder rows (opcode 0110011, funct7 0000001). -/
def rowsMulDiv : List TableRow :=
  [ ⟨"mul", 0x02000033#32, 0xFE00707F#32, fun w => .mul (rdOf w) (rs1Of w) (rs2Of w)⟩,
    ⟨"mulh", 0x02001033#32, 0xFE00707F#32, fun w => .mulh (rdOf w) (rs1Of w) (rs2Of w)⟩,
    ⟨"mulhsu", 0x02002033#32, 0xFE00707F#32, fun w => .mulhsu (rdOf w) (rs1Of w) (rs2Of w)⟩,
    ⟨"mulhu", 0x02003033#32, 0xFE00707F#32, fun w => .mulhu (rdOf w) (rs1Of w) (rs2Of w)⟩,
    ⟨"div", 0x02004033#32, 0xFE00707F#32, fun w => .div (rdOf w) (rs1Of w) (rs2Of w)⟩,
    ⟨"divu", 0x02005033#32, 0xFE00707F#32, fun w => .divu (rdOf w) (rs1Of w) (rs2Of w)⟩,
    ⟨"rem", 0x02006033#32, 0xFE00707F#32, fun w => .rem (rdOf w) (rs1Of w) (rs2Of w)⟩,
    ⟨"remu", 0x02007033#32, 0xFE00707F#32, fun w => .remu (rdOf w) (rs1Of w) (rs2Of w)⟩ ]

/-- Load rows (opcode 0000011) and store rows (opcode 0100011). -/
def rowsMemory : List TableRow :=
  [ ⟨"lb", 0x00000003#32, 0x0000707F#32, fun w => .lb (rdOf w) (rs1Of w) (immI w)⟩,
    ⟨"lh", 0x00001003#32, 0x0000707F#32, fun w => .lh (rdOf w) (rs1Of w) (immI w)⟩,
    ⟨"lw", 0x00002003#32, 0x0000707F#32, fun w => .lw (rdOf w) (rs1Of w) (immI w)⟩,
    ⟨"lbu", 0x00004003#32, 0x0000707F#32, fun w => .lbu (rdOf w) (rs1Of w) (immI w)⟩,
    ⟨"lhu", 0x00005003#32, 0x0000707F#32, fun w => .lhu (rdOf w) (rs1Of w) (immI w)⟩,
    ⟨"sb", 0x00000023#32, 0x0000707F#32, fun w => .sb (rs1Of w) (rs2Of w) (immS w)⟩,
    ⟨"sh", 0x00001023#32, 0x0000707F#32, fun w => .sh (rs1Of w) (rs2Of w) (immS w)⟩,
    ⟨"sw", 0x00002023#32, 0x0000707F#32, fun w => .sw (rs1Of w) (rs2Of w) (immS w)⟩ ]

/-- Branch rows (opcode 1100011), jumps and upper immediates. -/
def rowsControl : List TableRow :=
  [ ⟨"beq", 0x00000063#32, 0x0000707F#32, fun w => .beq (rs1Of w) (rs2Of w) (immB w)⟩,
    ⟨"bne", 0x00001063#32, 0x0000707F#32, fun w => .bne (rs1Of w) (rs2Of w) (immB w)⟩,
    ⟨"blt", 0x00004063#32, 0x0000707F#32, fun w => .blt (rs1Of w) (rs2Of w) (immB w)⟩,
    ⟨"bge", 0x00005063#32, 0x0000707F#32, fun w => .bge (rs1Of w) (rs2Of w) (immB w)⟩,
    ⟨"bltu", 0x00006063#32, 0x0000707F#32, fun w => .bltu (rs1Of w) (rs2Of w) (immB w)⟩,
    ⟨"bgeu", 0x00007063#32, 0x0000707F#32, fun w => .bgeu (rs1Of w) (rs2Of w) (immB w)⟩,
    ⟨"jal", 0x0000006F#32, 0x0000007F#32, fun w => .jal (rdOf w) (immJ w)⟩,
    ⟨"jalr", 0x00000067#32, 0x0000707F#32, fun w => .jalr (rdOf w) (rs1Of w) (immI w)⟩,
    ⟨"lui", 0x00000037#32, 0x0000007F#32, fun w => .lui (rdOf w) (immU w)⟩,
    ⟨"auipc", 0x00000017#32, 0x0000007F#32, fun w => .auipc (rdOf w) (immU w)⟩ ]

/-- System rows; ecall and ebreak are matched on the whole word (kind K4). -/
def rowsSystem : List TableRow :=
  [ ⟨"ecall", 0x00000073#32, 0xFFFFFFFF#32, fun _ => .ecall⟩,
    ⟨"ebreak", 0x00100073#32, 0xFFFFFFFF#32, fun _ => .ebreak⟩,
    ⟨"fence", 0x0000000F#32, 0x0000707F#32, fun _ => .fence⟩,
    ⟨"fence.i", 0x0000100F#32, 0x0000707F#32, fun _ => .fenceI⟩ ]

/-- Fused multiply-add rows. -/
def rowsFma : List TableRow :=
  [ ⟨"fmadd.s", 0x00000043#32, 0x0000007F#32, fun w => .fmaddS (rdOf w) (rs1Of w) (rs2Of w) (rs3Of w)⟩,
    ⟨"fmsub.s", 0x00000047#32, 0x0000007F#32, fun w => .fmsubS (rdOf w) (rs1Of w) (rs2Of w) (rs3Of w)⟩,
    ⟨"fnmsub.s", 0x0000004B#32, 0x0000007F#32, fun w => .fnmsubS (rdOf w) (rs1Of w) (rs2Of w) (rs3Of w)⟩,
    ⟨"fnmadd.s", 0x0000004F#32, 0x0000007F#32, fun w => .fnmaddS (rdOf w) (rs1Of w) (rs2Of w) (rs3Of w)⟩ ]

/-- The complete instruction list, 53 rows, in the order of rule R75: a constant, no state (10_state.md rule R31). -/
def decodeTable : List TableRow :=
  rowsRegister ++ rowsImmediate ++ rowsMulDiv ++ rowsMemory ++ rowsControl ++ rowsSystem ++ rowsFma

/-- `lookupByEncoding`: the row the word matches, or none (rule R76). No word matches two rows, so the order of the table
does not matter. -/
def lookupByEncoding (w : Word) : Option TableRow := decodeTable.find? (rowMatches w)

/-- Why no instruction is read. -/
inductive DecodeError where
  /-- No descriptor matches the word (rule R77): the step's outcome is InvalidInstruction. -/
  | noMatchingRow (word : Word)
  /-- Fewer than the four bytes of an instruction were given. The machine never raises it: a fetch reads four bytes. -/
  | fewerThanFourBytes
  deriving DecidableEq, Repr

/-- The instruction a word encodes (rule R76), total on all words (rule R69). -/
def decodeWord (w : Word) : Except DecodeError Instr :=
  match lookupByEncoding w with
  | some r => .ok (r.build w)
  | none => .error (.noMatchingRow w)

/-- The word whose bytes, lowest address first, are given: little-endian (20_memory.md rules R42, R52). -/
def wordOfBytes (b0 b1 b2 b3 : Byte) : Word := b3 ++ b2 ++ b1 ++ b0

/-- The instruction at the head of some bytes, and the bytes after it. -/
def decode : List Byte → Except DecodeError (Instr × List Byte)
  | b0 :: b1 :: b2 :: b3 :: rest =>
    match decodeWord (wordOfBytes b0 b1 b2 b3) with
    | .ok i => .ok (i, rest)
    | .error e => .error e
  | _ => .error .fewerThanFourBytes

/-! ### Re-encoding (rule R70) -/

/-- R, and I with a shift amount: {f7, rs2, rs1, f3, rd, op}. -/
def encodeR (op : BitVec 7) (f3 : BitVec 3) (f7 : BitVec 7) (rd rs1 rs2 : RegIdx) : Word :=
  f7 ++ rs2 ++ rs1 ++ f3 ++ rd ++ op

/-- I: {i[11:0], rs1, f3, rd, op}. -/
def encodeI (op : BitVec 7) (f3 : BitVec 3) (rd rs1 : RegIdx) (imm : Word) : Word :=
  imm.extractLsb' 0 12 ++ rs1 ++ f3 ++ rd ++ op

/-- S: {i[11:5], rs2, rs1, f3, i[4:0], op}. -/
def encodeS (op : BitVec 7) (f3 : BitVec 3) (rs1 rs2 : RegIdx) (imm : Word) : Word :=
  imm.extractLsb' 5 7 ++ rs2 ++ rs1 ++ f3 ++ imm.extractLsb' 0 5 ++ op

/-- B: {i[12], i[10:5], rs2, rs1, f3, i[4:1], i[11], op}. -/
def encodeB (op : BitVec 7) (f3 : BitVec 3) (rs1 rs2 : RegIdx) (imm : Word) : Word :=
  imm.extractLsb' 12 1 ++ imm.extractLsb' 5 6 ++ rs2 ++ rs1 ++ f3 ++ imm.extractLsb' 1 4 ++ imm.extractLsb' 11 1 ++ op

/-- U: {i[31:12], rd, op}. -/
def encodeU (op : BitVec 7) (rd : RegIdx) (imm : Word) : Word := imm.extractLsb' 12 20 ++ rd ++ op

/-- J: {i[20], i[10:1], i[11], i[19:12], rd, op}. -/
def encodeJ (op : BitVec 7) (rd : RegIdx) (imm : Word) : Word :=
  imm.extractLsb' 20 1 ++ imm.extractLsb' 1 10 ++ imm.extractLsb' 11 1 ++ imm.extractLsb' 12 8 ++ rd ++ op

/-- FR4: {rs3, 00, rs2, rs1, 000, rd, op}; the ignored fields are written as zero. -/
def encodeFR4 (op : BitVec 7) (rd rs1 rs2 rs3 : RegIdx) : Word :=
  rs3 ++ 0b00#2 ++ rs2 ++ rs1 ++ 0b000#3 ++ rd ++ op

/-- The word of a well-formed instruction (rules R70, R75). The ignored fields of fence are written as rule R80 has
them assembled, word 0x0FF0000F (log 11). -/
def encode : Instr → Word
  | .add rd rs1 rs2 => encodeR 0b0110011#7 0b000#3 0b0000000#7 rd rs1 rs2
  | .sub rd rs1 rs2 => encodeR 0b0110011#7 0b000#3 0b0100000#7 rd rs1 rs2
  | .sll rd rs1 rs2 => encodeR 0b0110011#7 0b001#3 0b0000000#7 rd rs1 rs2
  | .slt rd rs1 rs2 => encodeR 0b0110011#7 0b010#3 0b0000000#7 rd rs1 rs2
  | .sltu rd rs1 rs2 => encodeR 0b0110011#7 0b011#3 0b0000000#7 rd rs1 rs2
  | .xor rd rs1 rs2 => encodeR 0b0110011#7 0b100#3 0b0000000#7 rd rs1 rs2
  | .srl rd rs1 rs2 => encodeR 0b0110011#7 0b101#3 0b0000000#7 rd rs1 rs2
  | .sra rd rs1 rs2 => encodeR 0b0110011#7 0b101#3 0b0100000#7 rd rs1 rs2
  | .or rd rs1 rs2 => encodeR 0b0110011#7 0b110#3 0b0000000#7 rd rs1 rs2
  | .and rd rs1 rs2 => encodeR 0b0110011#7 0b111#3 0b0000000#7 rd rs1 rs2
  | .addi rd rs1 imm => encodeI 0b0010011#7 0b000#3 rd rs1 imm
  | .slti rd rs1 imm => encodeI 0b0010011#7 0b010#3 rd rs1 imm
  | .sltiu rd rs1 imm => encodeI 0b0010011#7 0b011#3 rd rs1 imm
  | .xori rd rs1 imm => encodeI 0b0010011#7 0b100#3 rd rs1 imm
  | .ori rd rs1 imm => encodeI 0b0010011#7 0b110#3 rd rs1 imm
  | .andi rd rs1 imm => encodeI 0b0010011#7 0b111#3 rd rs1 imm
  | .slli rd rs1 shamt => encodeR 0b0010011#7 0b001#3 0b0000000#7 rd rs1 shamt
  | .srli rd rs1 shamt => encodeR 0b0010011#7 0b101#3 0b0000000#7 rd rs1 shamt
  | .srai rd rs1 shamt => encodeR 0b0010011#7 0b101#3 0b0100000#7 rd rs1 shamt
  | .mul rd rs1 rs2 => encodeR 0b0110011#7 0b000#3 0b0000001#7 rd rs1 rs2
  | .mulh rd rs1 rs2 => encodeR 0b0110011#7 0b001#3 0b0000001#7 rd rs1 rs2
  | .mulhsu rd rs1 rs2 => encodeR 0b0110011#7 0b010#3 0b0000001#7 rd rs1 rs2
  | .mulhu rd rs1 rs2 => encodeR 0b0110011#7 0b011#3 0b0000001#7 rd rs1 rs2
  | .div rd rs1 rs2 => encodeR 0b0110011#7 0b100#3 0b0000001#7 rd rs1 rs2
  | .divu rd rs1 rs2 => encodeR 0b0110011#7 0b101#3 0b0000001#7 rd rs1 rs2
  | .rem rd rs1 rs2 => encodeR 0b0110011#7 0b110#3 0b0000001#7 rd rs1 rs2
  | .remu rd rs1 rs2 => encodeR 0b0110011#7 0b111#3 0b0000001#7 rd rs1 rs2
  | .lb rd rs1 imm => encodeI 0b0000011#7 0b000#3 rd rs1 imm
  | .lh rd rs1 imm => encodeI 0b0000011#7 0b001#3 rd rs1 imm
  | .lw rd rs1 imm => encodeI 0b0000011#7 0b010#3 rd rs1 imm
  | .lbu rd rs1 imm => encodeI 0b0000011#7 0b100#3 rd rs1 imm
  | .lhu rd rs1 imm => encodeI 0b0000011#7 0b101#3 rd rs1 imm
  | .sb rs1 rs2 imm => encodeS 0b0100011#7 0b000#3 rs1 rs2 imm
  | .sh rs1 rs2 imm => encodeS 0b0100011#7 0b001#3 rs1 rs2 imm
  | .sw rs1 rs2 imm => encodeS 0b0100011#7 0b010#3 rs1 rs2 imm
  | .beq rs1 rs2 imm => encodeB 0b1100011#7 0b000#3 rs1 rs2 imm
  | .bne rs1 rs2 imm => encodeB 0b1100011#7 0b001#3 rs1 rs2 imm
  | .blt rs1 rs2 imm => encodeB 0b1100011#7 0b100#3 rs1 rs2 imm
  | .bge rs1 rs2 imm => encodeB 0b1100011#7 0b101#3 rs1 rs2 imm
  | .bltu rs1 rs2 imm => encodeB 0b1100011#7 0b110#3 rs1 rs2 imm
  | .bgeu rs1 rs2 imm => encodeB 0b1100011#7 0b111#3 rs1 rs2 imm
  | .jal rd imm => encodeJ 0b1101111#7 rd imm
  | .jalr rd rs1 imm => encodeI 0b1100111#7 0b000#3 rd rs1 imm
  | .lui rd imm => encodeU 0b0110111#7 rd imm
  | .auipc rd imm => encodeU 0b0010111#7 rd imm
  | .ecall => 0x00000073#32
  | .ebreak => 0x00100073#32
  | .fence => 0x0FF0000F#32
  | .fenceI => 0x0000100F#32
  | .fmaddS rd rs1 rs2 rs3 => encodeFR4 0b1000011#7 rd rs1 rs2 rs3
  | .fmsubS rd rs1 rs2 rs3 => encodeFR4 0b1000111#7 rd rs1 rs2 rs3
  | .fnmsubS rd rs1 rs2 rs3 => encodeFR4 0b1001011#7 rd rs1 rs2 rs3
  | .fnmaddS rd rs1 rs2 rs3 => encodeFR4 0b1001111#7 rd rs1 rs2 rs3

/-- The bytes of a word, lowest address first (20_memory.md rule R52). -/
def bytesOfWord (w : Word) : List Byte :=
  [w.extractLsb' 0 8, w.extractLsb' 8 8, w.extractLsb' 16 8, w.extractLsb' 24 8]

/-- The bytes of a well-formed instruction, lowest address first. -/
def encodeBytes (i : Instr) : List Byte := bytesOfWord (encode i)

/-! ### The opcode table's own numbering -/

/-- The word an opcode-table row's bits stand for: bits `nbits` and above are zero. -/
def tableWord (nbits w : Nat) : Word := BitVec.ofNat 32 (w % 2 ^ nbits)

/-- The instruction the decoder reads from a row's bits, laid out as the hardware stores them. -/
def decodeTableWord (nbits w : Nat) : Option Instr :=
  match decode (bytesOfWord (tableWord nbits w)) with
  | .ok (i, _) => some i
  | .error _ => none

end Sys2Proof
end

