-- ==== Sys2Proof/Machine/Fetch.lean ====
section
/-! DEFINITION. The order of work inside one step (00_scope.md rule R9): fetch at the pc, look the word up, and either end with
InvalidInstruction or execute. -/

namespace Sys2Proof.Machine

/-- The instruction word at the pc: `MemRead(pc, 4)`, from the same memory as data, whatever the low bits of pc are
(20_memory.md rules R52, R53). -/
def State.fetchWord (s : State) : Word := s.memRead4 s.pc

/-- One step of a running core: the fetched word is executed, or the step ends with InvalidInstruction(pc, word) before any
operand is read (60_exceptions.md rule R301). -/
def State.runFetched (execute : Instr → State → Host.Outcome State Fault Refusal) (s : State) :
    Host.Outcome State Fault Refusal :=
  match decodeWord s.fetchWord with
  | .ok i => execute i s
  | .error _ => .next (s.raise (.invalidInstruction s.pc s.fetchWord))

/-- One step: a core whose last step did not retire does not run until the session has acted (rules R313, R314; log 6). -/
def State.stepWith (execute : Instr → State → Host.Outcome State Fault Refusal) (s : State) :
    Host.Outcome State Fault Refusal :=
  match s.outcome with
  | .retired => s.runFetched execute
  | .invalidInstruction pc word => .fault (.runEnded (.invalidInstruction pc word))
  | .environmentCall pc => .fault (.runEnded (.environmentCall pc))
  | .breakpoint pc => .fault (.runEnded (.breakpoint pc))

/-- The word is stored where the next step fetches, and the core is running. -/
def State.placeWord (s : State) (w : Word) : State := { s.memWrite4 s.pc w with outcome := .retired }

end Sys2Proof.Machine
end

