-- ==== Sys2Proof/Machine/Step.lean ====
section
/-! DEFINITION. The step function, and the placing of an instruction where the next step fetches it. -/

namespace Sys2Proof.Machine

/-- One step of the core (00_scope.md rules R8, R9). -/
def step (s : State) : Host.Outcome State Fault Refusal := s.stepWith exec

/-- `s` with the instruction whose bits the opcode table numbers `w` (all bits from `nbits` up being zero) stored at the pc,
and the core running, so that the very next step executes it. It stands for the session's load of a program (log 8). -/
def State.withFetchWord (s : State) (nbits w : Nat) : State := s.placeWord (tableWord nbits w)

end Sys2Proof.Machine
end

