-- ==== Sys2Proof/Machine/Session.lean ====
section
/-! DEFINITION. The session: what the owner of registers, memory and pc may do BETWEEN two steps (20_memory.md rule R58), at
launch (70_reset_and_hazards.md rule R341) and after a non-retiring outcome (60_exceptions.md rule R313). `step` never calls
any of it: the session has no move of its own in the machine (92_eei_decisions.md D22; log 7). -/

namespace Sys2Proof.Machine

/-- One write of the session, through the interface the core uses (10_state.md rule R32; 20_memory.md rule R41). -/
inductive SessionWrite where
  | int (i : RegIdx) (v : Word)
  | float (i : RegIdx) (v : Word)
  | pc (v : Word)
  | byte (a : Word) (v : Byte)
  deriving DecidableEq, Repr

/-- One write of the session, made. A write of x0 is a no-op (rule R32). -/
def State.sessionWrite (s : State) : SessionWrite → State
  | .int i v => s.writeInt i v
  | .float i v => s.writeFloat i v
  | .pc v => { s with pc := v }
  | .byte a v => s.setByte a v

/-- The session's writes between two steps, in order (rule R58). -/
def State.sessionAct (s : State) (writes : List SessionWrite) : State := writes.foldl State.sessionWrite s

/-- `SESSION_RESUME`: after a non-retiring outcome the session has made its writes and the core runs again (rule R313). With
no write of the pc the instruction is tried again. -/
def State.resume (s : State) (writes : List SessionWrite) : State :=
  let t := s.sessionAct writes
  t.resumeAt t.pc

/-- The conventional resume after an ecall or ebreak at address A: pc = A + 4 (rule R313). -/
def State.resumeAfter (s : State) : State := s.resumeAt (s.pc + 4#32)

/-- The launch parameters (00_scope.md rule R7): `RESET_PC`, `RESET_X[1..31]`, `RESET_F[0..31]` and `MEM_INIT`, the bytes the
session loads, in the order it loads them. -/
structure Launch where
  resetPc : Word
  resetX  : Vector Word 31
  resetF  : Vector Word 32
  memInit : List (Word × Byte)
  deriving DecidableEq, Repr

/-- The memory after the session has loaded the bytes given, one after another. -/
def Memory.load (m : Memory) : List (Word × Byte) → Memory
  | [] => m
  | (a, v) :: rest => Memory.load (m.write a.toNat v) rest

/-- The state a run starts in (10_state.md rule R33; 70_reset_and_hazards.md rule R341). -/
def State.launch (l : Launch) : State where
  x       := l.resetX
  f       := l.resetF
  pc      := l.resetPc
  mem     := Memory.load [] l.memInit
  outcome := .retired

/-- The launch that `State.reset` is: the values `Config` names, nothing loaded (log 1, 2, 3). -/
def Launch.default : Launch where
  resetPc := Config.resetPc
  resetX  := Vector.replicate 31 Config.resetRegister
  resetF  := Vector.replicate 32 Config.resetRegister
  memInit := []

end Sys2Proof.Machine
end

