-- ==== Sys2Proof/Safety.lean ====
section
/-! DEFINITION. The terms claims are made in: what an instruction's step leaves unchanged, what it means for an instruction to
complete, which words are invalid by the spec's own list, and the invariant of a run. -/

namespace Sys2Proof.Machine

/-! ### Frames: registers and memory, read through the model's own accessors -/

/-- Every integer register but x[rd] reads as before and x[rd] reads `v` (with rd = 0: nothing is written, and x0 still reads
as zero); every floating-point register and every byte of memory reads as before. -/
def State.OnlyIntWritten (s t : State) (rd : RegIdx) (v : Word) : Prop :=
  (∀ r, t.readInt r = if r = rd ∧ r ≠ 0#5 then v else s.readInt r) ∧
  (∀ r, t.readFloat r = s.readFloat r) ∧ (∀ a, t.byteAt a = s.byteAt a)

/-- Every floating-point register but f[rd] reads as before and f[rd] reads `v` (f0 is an ordinary register); every integer
register and every byte of memory reads as before. -/
def State.OnlyFloatWritten (s t : State) (rd : RegIdx) (v : Word) : Prop :=
  (∀ r, t.readFloat r = if r = rd then v else s.readFloat r) ∧
  (∀ r, t.readInt r = s.readInt r) ∧ (∀ a, t.byteAt a = s.byteAt a)

/-- Every register of both banks and every byte of memory reads as before. -/
def State.NothingWritten (s t : State) : Prop :=
  (∀ r, t.readInt r = s.readInt r) ∧ (∀ r, t.readFloat r = s.readFloat r) ∧ (∀ a, t.byteAt a = s.byteAt a)

/-- Every register of both banks reads as before, and so does every byte at an address not listed. -/
def State.OnlyBytesWritten (s t : State) (addresses : List Word) : Prop :=
  (∀ r, t.readInt r = s.readInt r) ∧ (∀ r, t.readFloat r = s.readFloat r) ∧
  (∀ a, a ∉ addresses → t.byteAt a = s.byteAt a)

/-! ### Completion: `exec` answers a next state, and which one -/

/-- The instruction completes: `exec` answers a next state in which it has retired, the pc is at `target`, and x[rd] alone
has been written, with `v`. -/
def CompletesInt (i : Instr) (s : State) (rd : RegIdx) (v target : Word) : Prop :=
  ∃ t, exec i s = .next t ∧ t.outcome = .retired ∧ t.pc = target ∧ s.OnlyIntWritten t rd v

/-- The instruction completes, at pc + 4, and f[rd] alone has been written, with `v`. -/
def CompletesFloat (i : Instr) (s : State) (rd : RegIdx) (v : Word) : Prop :=
  ∃ t, exec i s = .next t ∧ t.outcome = .retired ∧ t.pc = s.pc + 4#32 ∧ s.OnlyFloatWritten t rd v

/-- The instruction completes, at `target`, and nothing has been written. -/
def CompletesPlain (i : Instr) (s : State) (target : Word) : Prop :=
  ∃ t, exec i s = .next t ∧ t.outcome = .retired ∧ t.pc = target ∧ s.NothingWritten t

/-- The instruction completes, at pc + 4, having stored the bytes given at `ea`, `ea + 1`, … (modulo 2^32), the first at
the lowest address, and nothing else. -/
def CompletesStore (i : Instr) (s : State) (ea : Word) (bytes : List Byte) : Prop :=
  ∃ t, exec i s = .next t ∧ t.outcome = .retired ∧ t.pc = s.pc + 4#32 ∧
    (∀ k v, bytes[k]? = some v → t.byteAt (ea + BitVec.ofNat 32 k) = v) ∧
    s.OnlyBytesWritten t ((List.range bytes.length).map fun k => ea + BitVec.ofNat 32 k)

/-! ### Decoding -/

/-- Every word whose bits under `mask` are `bits` is read as `build` of it. -/
def RowReads (bits mask : Word) (build : Word → Instr) : Prop :=
  ∀ w : Word, w &&& mask = bits → decodeWord w = .ok (build w)

/-- The invalid words, by the exhaustive list of 30_encoding.md rule R77, row by row. -/
def invalidEncoding (w : Word) : Bool :=
  let f3 := funct3Of w
  let f7 := funct7Of w
  match opcodeOf w with
  | 0b0110011#7 => -- OP
    !(f7 == 0b0000000#7 || f7 == 0b0100000#7 || f7 == 0b0000001#7) ||
      (f7 == 0b0100000#7 && !(f3 == 0b000#3 || f3 == 0b101#3))
  | 0b0010011#7 => -- OP-IMM
    (f3 == 0b001#3 && f7 != 0b0000000#7) || (f3 == 0b101#3 && !(f7 == 0b0000000#7 || f7 == 0b0100000#7))
  | 0b0000011#7 => f3 == 0b011#3 || f3 == 0b110#3 || f3 == 0b111#3 -- LOAD
  | 0b0100011#7 => -- STORE
    f3 == 0b011#3 || f3 == 0b100#3 || f3 == 0b101#3 || f3 == 0b110#3 || f3 == 0b111#3
  | 0b1100011#7 => f3 == 0b010#3 || f3 == 0b011#3 -- BRANCH
  | 0b1100111#7 => f3 != 0b000#3 -- JALR
  | 0b0001111#7 => !(f3 == 0b000#3 || f3 == 0b001#3) -- MISC-MEM
  | 0b1110011#7 => w != 0x00000073#32 && w != 0x00100073#32 -- SYSTEM
  | 0b0110111#7 | 0b0010111#7 | 0b1101111#7 => false -- LUI, AUIPC, JAL
  | 0b1000011#7 | 0b1000111#7 | 0b1001011#7 | 0b1001111#7 => false -- the four FMA opcodes
  | _ => true

/-- The opcode is one of the four of the fused multiply-add instructions (rule R73). -/
def isFmaOpcode (op : BitVec 7) : Bool :=
  op == 0b1000011#7 || op == 0b1000111#7 || op == 0b1001011#7 || op == 0b1001111#7

/-! ### The invariant of a run -/

/-- The pc is even (10_state.md rule R25: "if the session starts the pc even it stays even"). -/
def State.pcEven (s : State) : Prop := s.pc.toNat % 2 = 0

/-- A non-retiring outcome names the pc the machine still stands at, and the word there is one that gives that outcome
(60_exceptions.md rules R301 to R304). -/
def State.outcomeFits (s : State) : Prop :=
  match s.outcome with
  | .retired => True
  | .invalidInstruction pc word => pc = s.pc ∧ word = s.fetchWord ∧ invalidEncoding word = true
  | .environmentCall pc => pc = s.pc ∧ s.fetchWord = 0x00000073#32
  | .breakpoint pc => pc = s.pc ∧ s.fetchWord = 0x00100073#32

/-- What every step keeps: memory in canonical form, an even pc, an outcome that fits the state. -/
structure State.Inv (s : State) : Prop where
  memWf : s.mem.wf = true
  pcEven : s.pcEven
  outcomeFits : s.outcomeFits

end Sys2Proof.Machine
end

