-- ==== Sys2Proof/Certificates/Slice0/Obligations.lean ====
section
/-! DEFINITION. The statements for the provers, family by family, each with the rules of spec/ it formalises. Where a statement
rests on a choice of the model, its docstring names the log entry. In every statement the numeric encodings (the masks and
bits of RowReads, the words) are the spec's own decision D2 (log 9). -/

open Sys2Proof Sys2Proof.Machine

/-! ### Decoding and encoding -/

/-- Decode and encode agree: every well-formed instruction is read back from the word, and from the bytes, that encode
writes for it, whatever bytes follow (30_encoding.md rules R69, R70; the ignored fields' values are log 11). -/
def Obligations.DecodeOfEncodeIsTheInstruction : Prop :=
  ∀ i : Instr, i.wellFormed = true →
    decodeWord (encode i) = .ok i ∧ ∀ rest, decode (encodeBytes i ++ rest) = .ok (i, rest)

/-- What the decoder reads is well-formed: immediates are in the ranges of rules R63 to R67, and even where the format
says so. -/
def Obligations.DecodedInstructionsAreWellFormed : Prop :=
  ∀ (w : Word) (i : Instr), decodeWord w = .ok i → i.wellFormed = true

/-- Rule R69, for each of the seven formats and every word: decoding and re-encoding with the same format recovers the
word. For FR4 it recovers the word but for the two ignored fields, bits 26:25 and 14:12: that the re-encoding writes zero
there is the model's choice (log 11; rule R70 writes zero and lets them hold anything). -/
def Obligations.EveryFormatRoundTripsEveryWord : Prop :=
  ∀ w : Word,
    encodeR (opcodeOf w) (funct3Of w) (funct7Of w) (rdOf w) (rs1Of w) (rs2Of w) = w ∧
    encodeR (opcodeOf w) (funct3Of w) (funct7Of w) (rdOf w) (rs1Of w) (shamtOf w) = w ∧
    encodeI (opcodeOf w) (funct3Of w) (rdOf w) (rs1Of w) (immI w) = w ∧
    encodeS (opcodeOf w) (funct3Of w) (rs1Of w) (rs2Of w) (immS w) = w ∧
    encodeB (opcodeOf w) (funct3Of w) (rs1Of w) (rs2Of w) (immB w) = w ∧
    encodeU (opcodeOf w) (rdOf w) (immU w) = w ∧
    encodeJ (opcodeOf w) (rdOf w) (immJ w) = w ∧
    encodeFR4 (opcodeOf w) (rdOf w) (rs1Of w) (rs2Of w) (rs3Of w) = w &&& 0xF9FF8FFF#32

/-- The immediates of rules R63 to R67 as integers: each field's weight is the one the rule gives it, the top bit's
being negative. -/
def Obligations.ImmediatesHaveTheirFieldWeights : Prop :=
  ∀ w : Word,
    let bit := fun i => ((w.extractLsb' i 1).toNat : Int)
    let fld := fun i n => ((w.extractLsb' i n).toNat : Int)
    (immI w).toInt = -2048 * bit 31 + fld 20 11 ∧
    (immS w).toInt = -2048 * bit 31 + 32 * fld 25 6 + fld 7 5 ∧
    (immB w).toInt = -4096 * bit 31 + 2048 * bit 7 + 32 * fld 25 6 + 2 * fld 8 4 ∧
    ((immU w).toNat : Int) = 4096 * fld 12 20 ∧
    (immJ w).toInt = -1048576 * bit 31 + 4096 * fld 12 8 + 2048 * bit 20 + 2 * fld 21 10

/-- The lookup is a function of the word alone: it gives a row exactly where that row is of the table and the word matches
it, so no word matches two rows; the table has 53 rows and each mnemonic once (rules R71, R76, R79). -/
def Obligations.LookupGivesTheUniqueMatchingRow : Prop :=
  decodeTable.length = 53 ∧ (decodeTable.map TableRow.mnemonic).Nodup ∧
  ∀ (w : Word) (r : TableRow),
    lookupByEncoding w = some r ↔ (r ∈ decodeTable ∧ w &&& r.mask = r.bits)

/-- Rule R77: the words that match no row are exactly those of its list, and a step that fetches one ends with
InvalidInstruction(pc, w) and changes nothing else. -/
def Obligations.InvalidWordsAreExactlyTheListed : Prop :=
  (∀ w : Word, (decodeWord w = .error (.noMatchingRow w)) ↔ invalidEncoding w = true) ∧
  (∀ w : Word, (∃ i, decodeWord w = .ok i) ↔ invalidEncoding w = false) ∧
  (∀ s : State, s.outcome = .retired → invalidEncoding s.fetchWord = true →
    step s = .next { s with outcome := .invalidInstruction s.pc s.fetchWord })

/-- A few words written out bit by bit from rules R62 to R68 and R75 decode to the instruction they stand for. -/
def Obligations.SampleWordsDecode : Prop :=
  decodeWord 0b0100000_00010_00001_000_00011_0110011#32 = .ok (.sub 3#5 1#5 2#5) ∧
  decodeWord 0b111111111101_00101_000_00110_0010011#32 = .ok (.addi 6#5 5#5 (-3#32)) ∧
  decodeWord 0b0100000_00100_00001_101_00011_0010011#32 = .ok (.srai 3#5 1#5 4#5) ∧
  decodeWord 0b1111111_00010_00001_010_11100_0100011#32 = .ok (.sw 1#5 2#5 (-4#32)) ∧
  decodeWord 0b1_111111_00010_00001_001_1110_1_1100011#32 = .ok (.bne 1#5 2#5 (-4#32)) ∧
  decodeWord 0b0_0000000000_1_00000000_00001_1101111#32 = .ok (.jal 1#5 2048#32) ∧
  decodeWord 0b00000000000000010000_00010_0010111#32 = .ok (.auipc 2#5 0x10000#32) ∧
  decodeWord 0b00011_00_00010_00001_000_00000_1000011#32 = .ok (.fmaddS 0#5 1#5 2#5 3#5)

/-! ### The step -/

/-- A step runs the decoded instruction: a running core whose four bytes at the pc, lowest address first, decode to an
instruction does what exec does with it, and adds nothing around it (00_scope.md rule R9; 20_memory.md rule R52). -/
def Obligations.StepRunsTheDecodedInstruction : Prop :=
  ∀ (s : State) (i : Instr), s.outcome = .retired →
    decode [s.byteAt s.pc, s.byteAt (s.pc + 1#32), s.byteAt (s.pc + 2#32), s.byteAt (s.pc + 3#32)] = .ok (i, []) →
    step s = exec i s

/-- A well-formed instruction placed where the next step fetches is the one that step runs (log 8). -/
def Obligations.PlacedInstructionIsTheOneRun : Prop :=
  ∀ (s : State) (i : Instr), s.mem.wf = true → i.wellFormed = true →
    step (s.withFetchWord 32 (encode i).toNat) = exec i (s.withFetchWord 32 (encode i).toNat)

/-- Every step of a running core finishes, whatever the state holds: with a next state, never with a fault or a refusal; and
its outcome is EnvironmentCall exactly for the word of ecall, Breakpoint exactly for the word of ebreak,
InvalidInstruction exactly for an invalid word, each with the pc (and the word) it carries (60_exceptions.md rules R300 to
R303; 70_reset_and_hazards.md rule R351). -/
def Obligations.EveryRunningStepEndsWithItsOutcome : Prop :=
  ∀ s : State, s.outcome = .retired → ∃ t, step s = .next t ∧
    (∀ p, t.outcome = .environmentCall p ↔ (p = s.pc ∧ s.fetchWord = 0x00000073#32)) ∧
    (∀ p, t.outcome = .breakpoint p ↔ (p = s.pc ∧ s.fetchWord = 0x00100073#32)) ∧
    (∀ p w, t.outcome = .invalidInstruction p w ↔ (p = s.pc ∧ w = s.fetchWord ∧ invalidEncoding w = true))

/-- Rule R304: a step with a non-retiring outcome changes nothing but the reported outcome. -/
def Obligations.NonRetiringStepChangesNothing : Prop :=
  ∀ s t : State, step s = .next t → t.outcome ≠ .retired →
    t.x = s.x ∧ t.f = s.f ∧ t.mem = s.mem ∧ t.pc = s.pc

/-- Nothing but ecall and ebreak keeps a decoded instruction from retiring (47_system.md rule R200): every other instruction
answers a next state on every state, whatever its operands (60_exceptions.md rules R306, R307; 48_fp_fma.md rule R218).
That loads and stores do rests on every address being admitted (log 4), that the fences do on the spec's decision D23
(log 10). -/
def Obligations.EveryOtherInstructionRetires : Prop :=
  ∀ (i : Instr) (s : State), i ≠ .ecall → i ≠ .ebreak → ∃ t, exec i s = .next t ∧ t.outcome = .retired

/-- Rule R25's table: how a retiring step leaves the pc, by the opcode of the word it fetched. -/
def Obligations.RetiringStepLeavesThePc : Prop :=
  ∀ s t : State, step s = .next t → t.outcome = .retired →
    let w := s.fetchWord
    (opcodeOf w = 0b1100011#7 → t.pc = s.pc + 4#32 ∨ t.pc = s.pc + immB w) ∧
    (opcodeOf w = 0b1101111#7 → t.pc = s.pc + immJ w) ∧
    (opcodeOf w = 0b1100111#7 → t.pc = (s.readInt (rs1Of w) + immI w) &&& 0xFFFFFFFE#32) ∧
    (opcodeOf w ≠ 0b1100011#7 → opcodeOf w ≠ 0b1101111#7 → opcodeOf w ≠ 0b1100111#7 → t.pc = s.pc + 4#32)

/-- A run ends at the first non-retiring outcome: no step follows until the session acts. How the model says so, a fault of
its own that carries the outcome, is log 6; rules R313, R314 rest on it. -/
def Obligations.RunEndsAtTheFirstNonRetiringOutcome : Prop :=
  ∀ s : State, s.outcome ≠ .retired → step s = .fault (.runEnded s.outcome)

/-- After an ecall or an ebreak at A the session's conventional resume gives the state before it with pc = A + 4, and the
core runs on from there; with no write at all it runs the same instruction again (60_exceptions.md rule R313; log 6). -/
def Obligations.ResumeContinuesAfterTheCall : Prop :=
  ∀ s t : State, step s = .next t → t.outcome ≠ .retired →
    t.resumeAfter = { s with pc := s.pc + 4#32 } ∧ t.resume [] = s ∧
    ∀ i, decodeWord t.resumeAfter.fetchWord = .ok i → step t.resumeAfter = exec i t.resumeAfter

/-! ### The invariant -/

/-- From every state that meets the invariant, a step gives a state that meets it: memory stays in canonical form, the pc
stays even (rule R25), a reported outcome fits the state (rules R301 to R304). -/
def Obligations.StepKeepsTheInvariant : Prop :=
  ∀ s t : State, s.Inv → step s = .next t → t.Inv

/-- The invariant holds at reset. The pc, registers and memory there are the model's choice (log 1, 2, 3). -/
def Obligations.InvariantHoldsAtReset : Prop := State.reset.Inv

/-- A launch leaves what the session supplied, x0 aside, and meets the invariant when the pc is even: each byte is the last
one loaded at its address; a byte that was not loaded reads as log 3 says (10_state.md rule R33; 70_reset_and_hazards.md
rule R341). -/
def Obligations.LaunchLeavesWhatTheSessionSupplied : Prop :=
  ∀ l : Launch,
    (State.launch l).readInt 0#5 = 0#32 ∧
    (∀ (k : Nat) (hk : k < 31), (State.launch l).readInt (BitVec.ofNat 5 (k + 1)) = l.resetX[k]) ∧
    (∀ (k : Nat) (hk : k < 32), (State.launch l).readFloat (BitVec.ofNat 5 k) = l.resetF[k]) ∧
    (State.launch l).pc = l.resetPc ∧ (State.launch l).outcome = .retired ∧
    (∀ a : Word, (State.launch l).byteAt a =
      ((l.memInit.reverse.find? fun e => e.1 == a).map Prod.snd).getD Config.unlistedByte) ∧
    (l.resetPc.toNat % 2 = 0 → (State.launch l).Inv)

/-- The session's writes between two steps keep memory in its canonical form and cannot make x0 read anything but zero. The
canonical form is the model's own (log 3), and so is the form of the session's writes, which step never makes (log 7);
that the session may write, and that a write of x0 is a no-op, is 20_memory.md rule R58 and 10_state.md rule R32. -/
def Obligations.SessionWritesKeepMemoryCanonical : Prop :=
  ∀ (s : State) (writes : List SessionWrite), s.mem.wf = true →
    (s.sessionAct writes).mem.wf = true ∧ (s.sessionAct writes).readInt 0#5 = 0#32

/-- Memories in canonical form that read the same are the same data (the form is the model's, log 3). -/
def Obligations.CanonicalMemoriesReadingAlikeAreEqual : Prop :=
  ∀ m n : Memory, m.wf = true → n.wf = true → (∀ a : Word, m.read a.toNat = n.read a.toNat) → m = n

/-! ### Integer ALU -/

/-- Rules R101 to R110: the ten register-register instructions, by their encodings and by their results as integers. Sources
are read before x[rd] is written, so rd may be a source; x[rd] alone changes, nothing at all when rd = 0; pc + 4. -/
def Obligations.RegisterRegisterInstructionsWriteTheirResult : Prop :=
  (RowReads 0x00000033#32 0xFE00707F#32 (fun w => .add (rdOf w) (rs1Of w) (rs2Of w)) ∧
   RowReads 0x40000033#32 0xFE00707F#32 (fun w => .sub (rdOf w) (rs1Of w) (rs2Of w)) ∧
   RowReads 0x00001033#32 0xFE00707F#32 (fun w => .sll (rdOf w) (rs1Of w) (rs2Of w)) ∧
   RowReads 0x00002033#32 0xFE00707F#32 (fun w => .slt (rdOf w) (rs1Of w) (rs2Of w)) ∧
   RowReads 0x00003033#32 0xFE00707F#32 (fun w => .sltu (rdOf w) (rs1Of w) (rs2Of w)) ∧
   RowReads 0x00004033#32 0xFE00707F#32 (fun w => .xor (rdOf w) (rs1Of w) (rs2Of w)) ∧
   RowReads 0x00005033#32 0xFE00707F#32 (fun w => .srl (rdOf w) (rs1Of w) (rs2Of w)) ∧
   RowReads 0x40005033#32 0xFE00707F#32 (fun w => .sra (rdOf w) (rs1Of w) (rs2Of w)) ∧
   RowReads 0x00006033#32 0xFE00707F#32 (fun w => .or (rdOf w) (rs1Of w) (rs2Of w)) ∧
   RowReads 0x00007033#32 0xFE00707F#32 (fun w => .and (rdOf w) (rs1Of w) (rs2Of w))) ∧
  ∀ (s : State) (rd rs1 rs2 : RegIdx),
    let a := s.readInt rs1
    let b := s.readInt rs2
    let n := b.toNat % 32
    let next := s.pc + 4#32
    CompletesInt (.add rd rs1 rs2) s rd (BitVec.ofInt 32 (a.toInt + b.toInt)) next ∧
    CompletesInt (.sub rd rs1 rs2) s rd (BitVec.ofInt 32 (a.toInt - b.toInt)) next ∧
    CompletesInt (.sll rd rs1 rs2) s rd (BitVec.ofNat 32 (a.toNat * 2 ^ n)) next ∧
    CompletesInt (.slt rd rs1 rs2) s rd (if a.toInt < b.toInt then 1#32 else 0#32) next ∧
    CompletesInt (.sltu rd rs1 rs2) s rd (if a.toNat < b.toNat then 1#32 else 0#32) next ∧
    CompletesInt (.xor rd rs1 rs2) s rd (a ^^^ b) next ∧
    CompletesInt (.srl rd rs1 rs2) s rd (BitVec.ofNat 32 (a.toNat / 2 ^ n)) next ∧
    CompletesInt (.sra rd rs1 rs2) s rd (BitVec.ofInt 32 (a.toInt / 2 ^ n)) next ∧
    CompletesInt (.or rd rs1 rs2) s rd (a ||| b) next ∧
    CompletesInt (.and rd rs1 rs2) s rd (a &&& b) next

/-- Rules R111 to R119: the nine immediate forms, by their encodings and by their results as integers, with the
sign-extended immediate (shamt for the shifts) as second operand. -/
def Obligations.RegisterImmediateInstructionsWriteTheirResult : Prop :=
  (RowReads 0x00000013#32 0x0000707F#32 (fun w => .addi (rdOf w) (rs1Of w) (immI w)) ∧
   RowReads 0x00002013#32 0x0000707F#32 (fun w => .slti (rdOf w) (rs1Of w) (immI w)) ∧
   RowReads 0x00003013#32 0x0000707F#32 (fun w => .sltiu (rdOf w) (rs1Of w) (immI w)) ∧
   RowReads 0x00004013#32 0x0000707F#32 (fun w => .xori (rdOf w) (rs1Of w) (immI w)) ∧
   RowReads 0x00006013#32 0x0000707F#32 (fun w => .ori (rdOf w) (rs1Of w) (immI w)) ∧
   RowReads 0x00007013#32 0x0000707F#32 (fun w => .andi (rdOf w) (rs1Of w) (immI w)) ∧
   RowReads 0x00001013#32 0xFE00707F#32 (fun w => .slli (rdOf w) (rs1Of w) (shamtOf w)) ∧
   RowReads 0x00005013#32 0xFE00707F#32 (fun w => .srli (rdOf w) (rs1Of w) (shamtOf w)) ∧
   RowReads 0x40005013#32 0xFE00707F#32 (fun w => .srai (rdOf w) (rs1Of w) (shamtOf w)) ∧
   (∀ w : Word, opcodeOf w = 0b0010011#7 → funct3Of w = 0b001#3 → funct7Of w ≠ 0#7 → decodeWord w = .error (.noMatchingRow w))) ∧
  ∀ (s : State) (rd rs1 : RegIdx) (imm : Word) (shamt : BitVec 5),
    let a := s.readInt rs1
    let next := s.pc + 4#32
    CompletesInt (.addi rd rs1 imm) s rd (BitVec.ofInt 32 (a.toInt + imm.toInt)) next ∧
    CompletesInt (.slti rd rs1 imm) s rd (if a.toInt < imm.toInt then 1#32 else 0#32) next ∧
    CompletesInt (.sltiu rd rs1 imm) s rd (if a.toNat < imm.toNat then 1#32 else 0#32) next ∧
    CompletesInt (.xori rd rs1 imm) s rd (a ^^^ imm) next ∧
    CompletesInt (.ori rd rs1 imm) s rd (a ||| imm) next ∧
    CompletesInt (.andi rd rs1 imm) s rd (a &&& imm) next ∧
    CompletesInt (.slli rd rs1 shamt) s rd (BitVec.ofNat 32 (a.toNat * 2 ^ shamt.toNat)) next ∧
    CompletesInt (.srli rd rs1 shamt) s rd (BitVec.ofNat 32 (a.toNat / 2 ^ shamt.toNat)) next ∧
    CompletesInt (.srai rd rs1 shamt) s rd (BitVec.ofInt 32 (a.toInt / 2 ^ shamt.toNat)) next

/-! ### Multiply and divide -/

/-- Rules R131 to R134: the low half of the exact product, and the high half floor(P / 2^32) mod 2^32 of the signed,
signed by unsigned, and unsigned products (rule R140). -/
def Obligations.MultiplyInstructionsWriteTheirHalf : Prop :=
  (RowReads 0x02000033#32 0xFE00707F#32 (fun w => .mul (rdOf w) (rs1Of w) (rs2Of w)) ∧
   RowReads 0x02001033#32 0xFE00707F#32 (fun w => .mulh (rdOf w) (rs1Of w) (rs2Of w)) ∧
   RowReads 0x02002033#32 0xFE00707F#32 (fun w => .mulhsu (rdOf w) (rs1Of w) (rs2Of w)) ∧
   RowReads 0x02003033#32 0xFE00707F#32 (fun w => .mulhu (rdOf w) (rs1Of w) (rs2Of w))) ∧
  ∀ (s : State) (rd rs1 rs2 : RegIdx),
    let a := s.readInt rs1
    let b := s.readInt rs2
    let next := s.pc + 4#32
    CompletesInt (.mul rd rs1 rs2) s rd (BitVec.ofNat 32 (a.toNat * b.toNat)) next ∧
    CompletesInt (.mulh rd rs1 rs2) s rd (BitVec.ofInt 32 (a.toInt * b.toInt / 2 ^ 32)) next ∧
    CompletesInt (.mulhsu rd rs1 rs2) s rd (BitVec.ofInt 32 (a.toInt * b.toNat / 2 ^ 32)) next ∧
    CompletesInt (.mulhu rd rs1 rs2) s rd (BitVec.ofNat 32 (a.toNat * b.toNat / 2 ^ 32)) next

/-- The low half of the product is the same for the signed, the mixed and the unsigned reading, which is why there is one
mul (rule R140). -/
def Obligations.LowHalfOfTheProductIsSignIndependent : Prop :=
  ∀ (s : State) (rd rs1 rs2 : RegIdx),
    let a := s.readInt rs1
    let b := s.readInt rs2
    CompletesInt (.mul rd rs1 rs2) s rd (BitVec.ofInt 32 (a.toInt * b.toInt)) (s.pc + 4#32) ∧
    CompletesInt (.mul rd rs1 rs2) s rd (BitVec.ofInt 32 (a.toInt * b.toNat)) (s.pc + 4#32)

/-- Rules R135 to R138: quotients and remainders, with the rows of rule R139 for a zero divisor and for -2^31 / -1. -/
def Obligations.DivideInstructionsWriteTheirResult : Prop :=
  (RowReads 0x02004033#32 0xFE00707F#32 (fun w => .div (rdOf w) (rs1Of w) (rs2Of w)) ∧
   RowReads 0x02005033#32 0xFE00707F#32 (fun w => .divu (rdOf w) (rs1Of w) (rs2Of w)) ∧
   RowReads 0x02006033#32 0xFE00707F#32 (fun w => .rem (rdOf w) (rs1Of w) (rs2Of w)) ∧
   RowReads 0x02007033#32 0xFE00707F#32 (fun w => .remu (rdOf w) (rs1Of w) (rs2Of w))) ∧
  ∀ (s : State) (rd rs1 rs2 : RegIdx),
    let a := s.readInt rs1
    let b := s.readInt rs2
    let next := s.pc + 4#32
    CompletesInt (.div rd rs1 rs2) s rd
      (if b = 0#32 then 0xFFFFFFFF#32 else if a = 0x80000000#32 ∧ b = 0xFFFFFFFF#32 then 0x80000000#32
       else BitVec.ofInt 32 (Int.sign a.toInt * Int.sign b.toInt * (a.toInt.natAbs / b.toInt.natAbs : Nat))) next ∧
    CompletesInt (.rem rd rs1 rs2) s rd
      (if b = 0#32 then a else if a = 0x80000000#32 ∧ b = 0xFFFFFFFF#32 then 0x00000000#32
       else BitVec.ofInt 32 (Int.sign a.toInt * (a.toInt.natAbs % b.toInt.natAbs : Nat))) next ∧
    CompletesInt (.divu rd rs1 rs2) s rd
      (if b = 0#32 then 0xFFFFFFFF#32 else BitVec.ofNat 32 (a.toNat / b.toNat)) next ∧
    CompletesInt (.remu rd rs1 rs2) s rd (if b = 0#32 then a else BitVec.ofNat 32 (a.toNat % b.toNat)) next

/-- Rule R139's law: whenever the divisor is not zero and the case is not the signed overflow, dividend = quotient *
divisor + remainder, the remainder is smaller than the divisor, and a signed remainder that is not zero has the
dividend's sign. -/
def Obligations.QuotientAndRemainderObeyTheDivisionLaw : Prop :=
  ∀ a b : Word, b ≠ 0#32 →
    (¬ (a = 0x80000000#32 ∧ b = 0xFFFFFFFF#32) →
      a.toInt = (quotientSigned a b).toInt * b.toInt + (remainderSigned a b).toInt ∧
      (remainderSigned a b).toInt.natAbs < b.toInt.natAbs ∧
      ((remainderSigned a b).toInt ≠ 0 → Int.sign (remainderSigned a b).toInt = Int.sign a.toInt)) ∧
    a.toNat = (quotientUnsigned a b).toNat * b.toNat + (remainderUnsigned a b).toNat ∧
    (remainderUnsigned a b).toNat < b.toNat

/-! ### Loads and stores -/

/-- Rules R151 to R155: each load by its encoding and by its value, little-endian, from `ea = x[rs1] + imm`, every byte
address modulo 2^32, at any alignment; sign- or zero-extended to 32 bits. -/
def Obligations.LoadsWriteTheBytesRead : Prop :=
  (RowReads 0x00000003#32 0x0000707F#32 (fun w => .lb (rdOf w) (rs1Of w) (immI w)) ∧
   RowReads 0x00001003#32 0x0000707F#32 (fun w => .lh (rdOf w) (rs1Of w) (immI w)) ∧
   RowReads 0x00002003#32 0x0000707F#32 (fun w => .lw (rdOf w) (rs1Of w) (immI w)) ∧
   RowReads 0x00004003#32 0x0000707F#32 (fun w => .lbu (rdOf w) (rs1Of w) (immI w)) ∧
   RowReads 0x00005003#32 0x0000707F#32 (fun w => .lhu (rdOf w) (rs1Of w) (immI w))) ∧
  ∀ (s : State) (rd rs1 : RegIdx) (imm : Word),
    let ea := s.readInt rs1 + imm
    let m := fun k => (s.byteAt (ea + BitVec.ofNat 32 k)).toNat
    let half : Nat := m 0 + 2 ^ 8 * m 1
    let word : Nat := m 0 + 2 ^ 8 * m 1 + 2 ^ 16 * m 2 + 2 ^ 24 * m 3
    let next := s.pc + 4#32
    CompletesInt (.lb rd rs1 imm) s rd (BitVec.ofInt 32 (if m 0 < 2 ^ 7 then m 0 else (m 0 : Int) - 2 ^ 8)) next ∧
    CompletesInt (.lh rd rs1 imm) s rd (BitVec.ofInt 32 (if half < 2 ^ 15 then half else (half : Int) - 2 ^ 16)) next ∧
    CompletesInt (.lw rd rs1 imm) s rd (BitVec.ofNat 32 word) next ∧
    CompletesInt (.lbu rd rs1 imm) s rd (BitVec.ofNat 32 (m 0)) next ∧
    CompletesInt (.lhu rd rs1 imm) s rd (BitVec.ofNat 32 half) next

/-- Rules R161 to R163: each store by its encoding; it writes the low bytes of x[rs2], the least significant at the lowest
address, at `ea = x[rs1] + imm` (the same computation as the meaning's), each byte address modulo 2^32, and changes
nothing else. Memory is in its canonical form. -/
def Obligations.StoresWriteTheLowBytes : Prop :=
  (RowReads 0x00000023#32 0x0000707F#32 (fun w => .sb (rs1Of w) (rs2Of w) (immS w)) ∧
   RowReads 0x00001023#32 0x0000707F#32 (fun w => .sh (rs1Of w) (rs2Of w) (immS w)) ∧
   RowReads 0x00002023#32 0x0000707F#32 (fun w => .sw (rs1Of w) (rs2Of w) (immS w))) ∧
  ∀ (s : State) (rs1 rs2 : RegIdx) (imm : Word), s.mem.wf = true →
    let ea := s.effectiveAddress rs1 imm
    let v := s.readInt rs2
    ea = s.readInt rs1 + imm ∧
    CompletesStore (.sb rs1 rs2 imm) s ea [v.extractLsb' 0 8] ∧
    CompletesStore (.sh rs1 rs2 imm) s ea [v.extractLsb' 0 8, v.extractLsb' 8 8] ∧
    CompletesStore (.sw rs1 rs2 imm) s ea
      [v.extractLsb' 0 8, v.extractLsb' 8 8, v.extractLsb' 16 8, v.extractLsb' 24 8]

/-- The frame of a store holds in every state, canonical memory or not: every byte outside the stored ones reads as before,
and so does every register (rules R44, R160). -/
def Obligations.StoresLeaveAllOtherBytes : Prop :=
  ∀ (s t : State) (rs1 rs2 : RegIdx) (imm : Word),
    let ea := s.effectiveAddress rs1 imm
    (exec (.sb rs1 rs2 imm) s = .next t → s.OnlyBytesWritten t [ea]) ∧
    (exec (.sh rs1 rs2 imm) s = .next t → s.OnlyBytesWritten t [ea, ea + 1#32]) ∧
    (exec (.sw rs1 rs2 imm) s = .next t → s.OnlyBytesWritten t [ea, ea + 1#32, ea + 2#32, ea + 3#32])

/-- Mixed widths (rule R47) and byte order (rule R42): after a word is stored at A, at any A, the word, both halves, the
overlapping half and each byte read back as the corresponding bytes of the word. -/
def Obligations.WordStoreIsReadBackAtEveryWidth : Prop :=
  ∀ (s : State) (a v : Word), s.mem.wf = true →
    let t := s.storeWord a v
    t.loadWord a = v ∧
    t.loadHalfUnsigned a = BitVec.ofNat 32 (v.toNat % 2 ^ 16) ∧
    t.loadHalf (a + 2#32) = BitVec.ofInt 32 (v.toInt / 2 ^ 16) ∧
    t.loadHalfUnsigned (a + 1#32) = BitVec.ofNat 32 (v.toNat / 2 ^ 8 % 2 ^ 16) ∧
    t.loadByteUnsigned a = BitVec.ofNat 32 (v.toNat % 2 ^ 8) ∧
    t.loadByteUnsigned (a + 1#32) = BitVec.ofNat 32 (v.toNat / 2 ^ 8 % 2 ^ 8) ∧
    t.loadByteUnsigned (a + 2#32) = BitVec.ofNat 32 (v.toNat / 2 ^ 16 % 2 ^ 8) ∧
    t.loadByte (a + 3#32) = BitVec.ofInt 32 (v.toInt / 2 ^ 24)

/-- A store is seen by the fetch of that address, with no fence between: a word stored over the next instruction is the
word the next step fetches and, where it encodes an instruction, runs (20_memory.md rule R56). -/
def Obligations.StoredWordIsFetchedNext : Prop :=
  ∀ (s : State) (rs1 rs2 : RegIdx) (imm : Word), s.mem.wf = true → s.effectiveAddress rs1 imm = s.pc + 4#32 →
    ∃ t, exec (.sw rs1 rs2 imm) s = .next t ∧ t.fetchWord = s.readInt rs2 ∧
      ∀ i, decodeWord (s.readInt rs2) = .ok i → step t = exec i t

/-! ### Branches, jumps, upper immediates -/

/-- Rules R171 to R176 with rule R170: each branch by its encoding, its predicate and both destinations; nothing is written.
The sum is modulo 2^32 and the target is not checked. -/
def Obligations.BranchesGoWhereThePredicateSays : Prop :=
  (RowReads 0x00000063#32 0x0000707F#32 (fun w => .beq (rs1Of w) (rs2Of w) (immB w)) ∧
   RowReads 0x00001063#32 0x0000707F#32 (fun w => .bne (rs1Of w) (rs2Of w) (immB w)) ∧
   RowReads 0x00004063#32 0x0000707F#32 (fun w => .blt (rs1Of w) (rs2Of w) (immB w)) ∧
   RowReads 0x00005063#32 0x0000707F#32 (fun w => .bge (rs1Of w) (rs2Of w) (immB w)) ∧
   RowReads 0x00006063#32 0x0000707F#32 (fun w => .bltu (rs1Of w) (rs2Of w) (immB w)) ∧
   RowReads 0x00007063#32 0x0000707F#32 (fun w => .bgeu (rs1Of w) (rs2Of w) (immB w))) ∧
  ∀ (s : State) (rs1 rs2 : RegIdx) (imm : Word),
    let a := s.readInt rs1
    let b := s.readInt rs2
    let target := BitVec.ofInt 32 (s.pc.toNat + imm.toInt)
    let next := BitVec.ofInt 32 (s.pc.toNat + 4)
    CompletesPlain (.beq rs1 rs2 imm) s (if a = b then target else next) ∧
    CompletesPlain (.bne rs1 rs2 imm) s (if a ≠ b then target else next) ∧
    CompletesPlain (.blt rs1 rs2 imm) s (if a.toInt < b.toInt then target else next) ∧
    CompletesPlain (.bge rs1 rs2 imm) s (if a.toInt ≥ b.toInt then target else next) ∧
    CompletesPlain (.bltu rs1 rs2 imm) s (if a.toNat < b.toNat then target else next) ∧
    CompletesPlain (.bgeu rs1 rs2 imm) s (if a.toNat ≥ b.toNat then target else next)

/-- Rules R181, R182: each jump by its encoding; the link pc + 4 is written to x[rd] (discarded for rd = 0) and the pc is
redirected: relative for jal, and for jalr to the sum with the OLD x[rs1], its bit 0 cleared and bit 1 kept. -/
def Obligations.JumpsLinkAndRedirect : Prop :=
  (RowReads 0x0000006F#32 0x0000007F#32 (fun w => .jal (rdOf w) (immJ w)) ∧
   RowReads 0x00000067#32 0x0000707F#32 (fun w => .jalr (rdOf w) (rs1Of w) (immI w)) ∧
   (∀ w : Word, opcodeOf w = 0b1100111#7 → funct3Of w ≠ 0#3 → decodeWord w = .error (.noMatchingRow w))) ∧
  ∀ (s : State) (rd rs1 : RegIdx) (imm : Word),
    let link := BitVec.ofNat 32 (s.pc.toNat + 4)
    let sum := ((s.readInt rs1).toNat + imm.toNat) % 2 ^ 32
    CompletesInt (.jal rd imm) s rd link (BitVec.ofInt 32 (s.pc.toNat + imm.toInt)) ∧
    CompletesInt (.jalr rd rs1 imm) s rd link (BitVec.ofNat 32 (sum - sum % 2))

/-- Rules R191, R192: lui writes the immediate, whose lower 12 bits are zero in every word; auipc adds it to the address of
the auipc itself. -/
def Obligations.UpperImmediatesWriteTheirValue : Prop :=
  (RowReads 0x00000037#32 0x0000007F#32 (fun w => .lui (rdOf w) (immU w)) ∧
   RowReads 0x00000017#32 0x0000007F#32 (fun w => .auipc (rdOf w) (immU w)) ∧
   (∀ w : Word, immU w = w.extractLsb' 12 20 ++ 0#12)) ∧
  ∀ (s : State) (rd : RegIdx) (imm : Word),
    CompletesInt (.lui rd imm) s rd imm (s.pc + 4#32) ∧
    CompletesInt (.auipc rd imm) s rd (BitVec.ofNat 32 (s.pc.toNat + imm.toNat)) (s.pc + 4#32)

/-! ### System instructions -/

/-- Rules R203, R204: fence and fence.i, whatever their ignored bits hold, advance the pc and change nothing else. -/
def Obligations.FencesOnlyAdvance : Prop :=
  RowReads 0x0000000F#32 0x0000707F#32 (fun _ => .fence) ∧
  RowReads 0x0000100F#32 0x0000707F#32 (fun _ => .fenceI) ∧
  ∀ s : State,
    exec .fence s = .next { s with pc := s.pc + 4#32, outcome := .retired } ∧
    exec .fenceI s = .next { s with pc := s.pc + 4#32, outcome := .retired }

/-- Rules R201, R202: ecall and ebreak are one word each; each ends its step with its outcome, which carries the pc, and
changes no register, no byte and not the pc. That this is a next state, and where the outcome stands in it, is log 6. -/
def Obligations.EcallAndEbreakEndTheStepWithTheirOutcome : Prop :=
  (∀ w : Word, decodeWord w = .ok .ecall ↔ w = 0x00000073#32) ∧
  (∀ w : Word, decodeWord w = .ok .ebreak ↔ w = 0x00100073#32) ∧
  ∀ s : State,
    exec .ecall s = .next { s with outcome := .environmentCall s.pc } ∧
    exec .ebreak s = .next { s with outcome := .breakpoint s.pc }

/-! ### Fused multiply-add -/

/-- Rules R220 to R223: the four instructions by their encodings (the fields `fmt` and `rm` are ignored, rule R219) and by
their results; f[rd] alone is written, at pc + 4; rd may be any source, and f0 is an ordinary register. -/
def Obligations.FusedInstructionsWriteTheirResult : Prop :=
  (RowReads 0x00000043#32 0x0000007F#32 (fun w => .fmaddS (rdOf w) (rs1Of w) (rs2Of w) (rs3Of w)) ∧
   RowReads 0x00000047#32 0x0000007F#32 (fun w => .fmsubS (rdOf w) (rs1Of w) (rs2Of w) (rs3Of w)) ∧
   RowReads 0x0000004B#32 0x0000007F#32 (fun w => .fnmsubS (rdOf w) (rs1Of w) (rs2Of w) (rs3Of w)) ∧
   RowReads 0x0000004F#32 0x0000007F#32 (fun w => .fnmaddS (rdOf w) (rs1Of w) (rs2Of w) (rs3Of w))) ∧
  ∀ (s : State) (rd rs1 rs2 rs3 : RegIdx),
    let a := s.readFloat rs1
    let b := s.readFloat rs2
    let c := s.readFloat rs3
    CompletesFloat (.fmaddS rd rs1 rs2 rs3) s rd (fma32 a b c) ∧
    CompletesFloat (.fmsubS rd rs1 rs2 rs3) s rd (fma32 a b (c ^^^ 0x80000000#32)) ∧
    CompletesFloat (.fnmsubS rd rs1 rs2 rs3) s rd (fma32 (a ^^^ 0x80000000#32) b c) ∧
    CompletesFloat (.fnmaddS rd rs1 rs2 rs3) s rd (fma32 (a ^^^ 0x80000000#32) b (c ^^^ 0x80000000#32))

/-- Rule R215: round to nearest, ties to even, of every value n * 2^-298. From 2^128 - 2^103 on the result is the infinity
with the value's sign. Below, it is a finite pattern with the value's sign, no finite pattern is nearer, and one equally
near of another value has an odd fraction, while the result's is even. -/
def Obligations.RoundingIsToNearestTiesToEven : Prop :=
  ∀ n : Int, n ≠ 0 →
    let v := round32 n
    signOf v = decide (n < 0) ∧
    ((2 ^ 128 - 2 ^ 103) * 2 ^ 298 ≤ n.natAbs → isInfinity v = true) ∧
    (n.natAbs < (2 ^ 128 - 2 ^ 103) * 2 ^ 298 → isFinite v = true ∧
      ∀ u : Word, isFinite u = true →
        (valueUnits v * 2 ^ 149 - n).natAbs ≤ (valueUnits u * 2 ^ 149 - n).natAbs ∧
        ((valueUnits v * 2 ^ 149 - n).natAbs = (valueUnits u * 2 ^ 149 - n).natAbs → valueUnits u ≠ valueUnits v →
          v.getLsbD 0 = false ∧ u.getLsbD 0 = true))

/-- Rule R214's cases for finite operands whose exact result is not zero: one rounding of the exact value, nothing rounded
before it; in particular a value that a finite pattern holds exactly is given exactly. -/
def Obligations.FiniteFusedResultIsRoundedOnce : Prop :=
  ∀ a b c : Word, isFinite a = true → isFinite b = true → isFinite c = true →
    let n := valueUnits a * valueUnits b + valueUnits c * 2 ^ 149
    (n ≠ 0 → fma32 a b c = round32 n) ∧
    (∀ u : Word, isFinite u = true → valueUnits u * 2 ^ 149 = n → n ≠ 0 → fma32 a b c = u)

/-- Rule R214's cases for infinities, when no operand is a NaN: inf * 0 and inf - inf give a NaN, an infinite product or
addend otherwise gives that infinity. -/
def Obligations.InfiniteFusedResults : Prop :=
  ∀ a b c : Word, isNaN a = false → isNaN b = false → isNaN c = false →
    let ps := signOf a ^^ signOf b
    (isInfinity a = true ∨ isInfinity b = true →
      ((isZero a = true ∨ isZero b = true) ∨ (isInfinity c = true ∧ signOf c ≠ ps) → isNaN (fma32 a b c) = true) ∧
      (isZero a = false → isZero b = false → (isInfinity c = true → signOf c = ps) →
        isInfinity (fma32 a b c) = true ∧ signOf (fma32 a b c) = ps)) ∧
    (isFinite a = true → isFinite b = true → isInfinity c = true → fma32 a b c = c)

/-- Rule R216: a NaN operand gives a NaN, and every NaN result of the fused operation is a quiet NaN, the same pattern
whatever the operands were. The pattern itself is free (log 5): this holds for every value of it. -/
def Obligations.NaNResultsAreOneQuietNaN : Prop :=
  (∀ a b c : Word, isNaN a = true ∨ isNaN b = true ∨ isNaN c = true → isNaN (fma32 a b c) = true) ∧
  (∀ a b c : Word, isNaN (fma32 a b c) = true → classOf (fma32 a b c) = .quietNaN) ∧
  (∀ a b c a' b' c' : Word, isNaN (fma32 a b c) = true → isNaN (fma32 a' b' c') = true →
    fma32 a b c = fma32 a' b' c')

/-- Rule R217's table: the sign of an exactly zero result of finite operands. -/
def Obligations.ZeroResultHasTheSignOfTheTable : Prop :=
  ∀ a b c : Word, isFinite a = true → isFinite b = true → isFinite c = true →
    let ps := signOf a ^^ signOf b
    (valueUnits a * valueUnits b = 0 → valueUnits c = 0 → ps = signOf c →
      isZero (fma32 a b c) = true ∧ signOf (fma32 a b c) = ps) ∧
    (valueUnits a * valueUnits b = 0 → valueUnits c = 0 → ps ≠ signOf c → fma32 a b c = 0x00000000#32) ∧
    (valueUnits a * valueUnits b ≠ 0 → valueUnits a * valueUnits b + valueUnits c * 2 ^ 149 = 0 →
      fma32 a b c = 0x00000000#32)

/-- Rule R223 with 90_conflicts.md C2: -(a * b) - c is the negation of a * b + c, bit for bit, for every non-zero exact result
and every infinity; where the exact result is zero it need not be: with 1.0, 1.0, -1.0 both are +0. -/
def Obligations.NegatedFormsAgreeAwayFromExactZero : Prop :=
  (∀ a b c : Word, isNaN (fma32 a b c) = false →
    (isFinite a = true ∧ isFinite b = true ∧ isFinite c = true →
      valueUnits a * valueUnits b + valueUnits c * 2 ^ 149 ≠ 0) →
    fma32 (fneg a) b (fneg c) = fneg (fma32 a b c)) ∧
  fma32 (fneg 0x3F800000#32) 0x3F800000#32 (fneg 0xBF800000#32) = 0x00000000#32 ∧
  fma32 0x3F800000#32 0x3F800000#32 0xBF800000#32 = 0x00000000#32

/-- The fused operation does not round its product: (1 + 2^-12)^2 - (1 + 2^-11) is 2^-24, which a product rounded before the
sum would lose (rule R224), and the two roundings differ at these operands. -/
def Obligations.FusedDiffersFromTwoRoundings : Prop :=
  fma32 0x3F800800#32 0x3F800800#32 0xBF801000#32 = 0x33800000#32 ∧
  fma32 (fma32 0x3F800800#32 0x3F800800#32 0x80000000#32) 0x3F800000#32 0xBF801000#32 = 0x00000000#32

/-- Rule R213: fneg inverts bit 31 and keeps the other 31 bits; it is exact for every class: the class is kept, the value of
a finite pattern is negated, and applied twice it gives the pattern back. -/
def Obligations.NegationIsExactForEveryClass : Prop :=
  ∀ v : Word, signOf (fneg v) = !signOf v ∧ (∀ i, i < 31 → (fneg v).getLsbD i = v.getLsbD i) ∧
    classOf (fneg v) = classOf v ∧ (isFinite v = true → valueUnits (fneg v) = -valueUnits v) ∧ fneg (fneg v) = v

/-- Rule R210: the class and the value of a pattern, by sign s, biased exponent e and fraction m, values counted in 2^-149,
and the landmarks. -/
def Obligations.PatternsHaveTheirClassAndValue : Prop :=
  (∀ v : Word,
    let s : Int := if v.getLsbD 31 then -1 else 1
    let e := (v.extractLsb' 23 8).toNat
    let m := (v.extractLsb' 0 23).toNat
    (e = 0 → m = 0 → classOf v = .zero ∧ valueUnits v = 0) ∧
    (e = 0 → m ≠ 0 → classOf v = .subnormal ∧ valueUnits v = s * m) ∧
    (1 ≤ e → e ≤ 254 → classOf v = .normal ∧ valueUnits v * 2 ^ 150 = s * (2 ^ 23 + m) * 2 ^ e * 2 ^ 149) ∧
    (e = 255 → m = 0 → classOf v = .infinity) ∧
    (e = 255 → m ≠ 0 → classOf v = if v.getLsbD 22 then .quietNaN else .signallingNaN)) ∧
  valueUnits 0x3F800000#32 = 2 ^ 149 ∧ valueUnits 0xC0E00000#32 = -7 * 2 ^ 149 ∧
  valueUnits 0x7F7FFFFF#32 = (2 ^ 128 - 2 ^ 104) * 2 ^ 149 ∧ valueUnits 0x00800000#32 = 2 ^ 23 ∧
  valueUnits 0x00000001#32 = 1

/-! ### Whole-machine rules -/

/-- x0 is hard-wired to zero: it reads as zero in every state, every write of it is discarded, and so it reads as zero
after every step (10_state.md rule R22). -/
def Obligations.RegisterZeroIsHardWired : Prop :=
  (∀ s : State, s.readInt 0#5 = 0#32) ∧ (∀ (s : State) (v : Word), s.writeInt 0#5 v = s) ∧
  (∀ s t : State, step s = .next t → t.readInt 0#5 = 0#32)

/-- The two banks never meet: a step whose opcode is none of the four fused multiply-adds leaves every floating-point
register, and a step of one of those leaves every integer register and all of memory (10_state.md rules R23, R27). -/
def Obligations.OnlyFusedInstructionsTouchTheFloatBank : Prop :=
  ∀ s t : State, step s = .next t →
    (isFmaOpcode (opcodeOf s.fetchWord) = false → t.f = s.f) ∧
    (isFmaOpcode (opcodeOf s.fetchWord) = true → t.x = s.x ∧ t.mem = s.mem)

/-- What the floating-point bank holds cannot be seen in any other state: two machines that differ only in f0 .. f31 take
steps that again differ only there (10_state.md rules R26, R27). -/
def Obligations.FloatBankIsInvisibleToTheRest : Prop :=
  ∀ (s t : State) (g : Vector Word 32), step s = .next t →
    ∃ g' : Vector Word 32, step { s with f := g } = .next { t with f := g' }

/-- Only a step with the STORE opcode changes memory, and only steps whose format has an rd change an integer register,
that register alone (10_state.md rule R23). That no instruction but a store (43_stores.md rule R160) writes memory is said by
the families' common rules: R100, R130, R156, R170, R180, R190, R200, the text above R220, and R304 for a step that does
not retire. -/
def Obligations.WritesFollowTheFormat : Prop :=
  ∀ s t : State, step s = .next t →
    let w := s.fetchWord
    (opcodeOf w ≠ 0b0100011#7 → t.mem = s.mem) ∧
    (opcodeOf w = 0b0100011#7 ∨ opcodeOf w = 0b1100011#7 ∨ opcodeOf w = 0b0001111#7 ∨ opcodeOf w = 0b1110011#7 →
      t.x = s.x) ∧
    (∀ r, r ≠ rdOf w → t.readInt r = s.readInt r)

/-- A multi-byte access at the top of memory wraps, byte by byte, to address 0: a word and a halfword read, a fetch, and a
word store, whose four bytes land at 0xFFFFFFFE, 0xFFFFFFFF, 0 and 1 (20_memory.md rules R46, R53; the spec's own
decisions D9, D10, log 12). -/
def Obligations.AccessesWrapAtTheTopOfMemory : Prop :=
  ∀ s : State,
    s.memRead4 0xFFFFFFFE#32 =
      s.byteAt 0x00000001#32 ++ s.byteAt 0x00000000#32 ++ s.byteAt 0xFFFFFFFF#32 ++ s.byteAt 0xFFFFFFFE#32 ∧
    s.memRead2 0xFFFFFFFF#32 = s.byteAt 0x00000000#32 ++ s.byteAt 0xFFFFFFFF#32 ∧
    (s.pc = 0xFFFFFFFD#32 → s.fetchWord =
      s.byteAt 0x00000000#32 ++ s.byteAt 0xFFFFFFFF#32 ++ s.byteAt 0xFFFFFFFE#32 ++ s.byteAt 0xFFFFFFFD#32) ∧
    ∀ v : Word, s.mem.wf = true →
      let t := s.storeWord 0xFFFFFFFE#32 v
      t.byteAt 0xFFFFFFFE#32 = v.extractLsb' 0 8 ∧ t.byteAt 0xFFFFFFFF#32 = v.extractLsb' 8 8 ∧
      t.byteAt 0x00000000#32 = v.extractLsb' 16 8 ∧ t.byteAt 0x00000001#32 = v.extractLsb' 24 8
end

