-- ==== Sys2Proof/Laws/Binary32.lean ====
section
/-! SUPPORT. The fused operation: its cases, said once (48_fp_fma.md rule R214), and that the pattern of a NaN result is a NaN
whatever its free bits are (rule R216). -/

namespace Sys2Proof.Machine

/-- Every case of `fma32`, with what decides it. -/
theorem fma32_cases (a b c : Word) :
    ((isNaN a || isNaN b || isNaN c) = true ∧ fma32 a b c = fmaNaN) ∨
    ((isNaN a || isNaN b || isNaN c) = false ∧ (isInfinity a || isInfinity b) = true ∧
      (isZero a || isZero b || isInfinity c && signOf c != (signOf a ^^ signOf b)) = true ∧ fma32 a b c = fmaNaN) ∨
    ((isNaN a || isNaN b || isNaN c) = false ∧ (isInfinity a || isInfinity b) = true ∧
      (isZero a || isZero b || isInfinity c && signOf c != (signOf a ^^ signOf b)) = false ∧
      fma32 a b c = infinityWith (signOf a ^^ signOf b)) ∨
    ((isNaN a || isNaN b || isNaN c) = false ∧ (isInfinity a || isInfinity b) = false ∧ isInfinity c = true ∧
      fma32 a b c = c) ∨
    ((isNaN a || isNaN b || isNaN c) = false ∧ (isInfinity a || isInfinity b) = false ∧ isInfinity c = false ∧
      fusedExact a b c = 0 ∧ fma32 a b c = zeroResult a b c) ∨
    ((isNaN a || isNaN b || isNaN c) = false ∧ (isInfinity a || isInfinity b) = false ∧ isInfinity c = false ∧
      fusedExact a b c ≠ 0 ∧ fma32 a b c = round32 (fusedExact a b c)) := by
  unfold fma32
  by_cases h1 : (isNaN a || isNaN b || isNaN c) = true
  · exact .inl ⟨h1, if_pos h1⟩
  · simp only [if_neg h1]
    rw [Bool.not_eq_true] at h1
    by_cases h2 : (isInfinity a || isInfinity b) = true
    · simp only [if_pos h2]
      by_cases h3 : (isZero a || isZero b) = true
      · exact .inr (.inl ⟨h1, h2, by simp only [h3, Bool.true_or], if_pos h3⟩)
      · simp only [if_neg h3]
        rw [Bool.not_eq_true] at h3
        by_cases h4 : (isInfinity c && signOf c != (signOf a ^^ signOf b)) = true
        · exact .inr (.inl ⟨h1, h2, by simp only [h4, Bool.or_true], if_pos h4⟩)
        · exact .inr (.inr (.inl ⟨h1, h2, by simp only [h3, Bool.not_eq_true _ ▸ h4, Bool.or_false], if_neg h4⟩))
    · simp only [if_neg h2]
      rw [Bool.not_eq_true] at h2
      by_cases h3 : isInfinity c = true
      · exact .inr (.inr (.inr (.inl ⟨h1, h2, h3, if_pos h3⟩)))
      · simp only [if_neg h3]
        rw [Bool.not_eq_true] at h3
        by_cases h4 : fusedExact a b c = 0
        · exact .inr (.inr (.inr (.inr (.inl ⟨h1, h2, h3, h4, if_pos h4⟩))))
        · exact .inr (.inr (.inr (.inr (.inr ⟨h1, h2, h3, h4, if_neg h4⟩))))

/-- A pattern with exponent 255 and bit 22 set is a NaN, whatever its other bits. -/
theorem quiet_pattern_is_nan (g : BitVec 23) :
    isNaN (g.extractLsb' 22 1 ++ 0xFF#8 ++ 0b1#1 ++ g.extractLsb' 0 22) = true := by
  have e : (g.extractLsb' 22 1 ++ 0xFF#8 ++ 0b1#1 ++ g.extractLsb' 0 22).extractLsb' 23 8 = 0xFF#8 := by
    apply BitVec.eq_of_getLsbD_eq
    intro i hi
    simp only [BitVec.getLsbD_append, BitVec.getLsbD_extractLsb']
    interval_cases i <;> simp
  have m : (g.extractLsb' 22 1 ++ 0xFF#8 ++ 0b1#1 ++ g.extractLsb' 0 22).extractLsb' 0 23 ≠ 0#23 := by
    intro h
    have h' := congrArg (fun v => v.getLsbD 22) h
    simp only [BitVec.getLsbD_append, BitVec.getLsbD_extractLsb'] at h'
    simp at h'
  have m' : fractionOf (g.extractLsb' 22 1 ++ 0xFF#8 ++ 0b1#1 ++ g.extractLsb' 0 22) ≠ 0 := fun h =>
    m (BitVec.eq_of_toNat_eq h)
  unfold isNaN
  rw [show exponentOf (g.extractLsb' 22 1 ++ 0xFF#8 ++ 0b1#1 ++ g.extractLsb' 0 22) = 255 from congrArg BitVec.toNat e]
  simpa using m'

theorem fmaNaN_is_nan : isNaN fmaNaN = true := quiet_pattern_is_nan _

end Sys2Proof.Machine
end

