-- ==== Sys2Proof/Laws/Decode.lean ====
section
/-! SUPPORT. Decoding: no word matches two rows, a word that matches a row decodes by it, and what the format decoders read
from a re-encoded word. -/

namespace Sys2Proof

/-! ### The table -/

/-- Every two rows differ in a bit that both compare (30_encoding.md rule R76). -/
theorem rows_disjoint :
    decodeTable.Pairwise (fun r q => r.mask &&& q.mask &&& (r.bits ^^^ q.bits) ≠ 0#32) := by
  decide +kernel

/-- Two rows that one word matches agree on the bits both compare. -/
theorem matches_agree {w m m' b b' : Word} (h : w &&& m = b) (h' : w &&& m' = b') : m &&& m' &&& (b ^^^ b') = 0#32 := by
  subst h h'
  apply BitVec.eq_of_getLsbD_eq
  intro i _
  simp only [BitVec.getLsbD_and, BitVec.getLsbD_xor, BitVec.getLsbD_zero]
  cases w.getLsbD i <;> cases m.getLsbD i <;> cases m'.getLsbD i <;> rfl

/-- In a list whose rows pairwise disagree, the first row a word matches is the only one. -/
theorem find_of_matches {w : Word} {r : TableRow} : ∀ {rows : List TableRow},
    rows.Pairwise (fun r q => r.mask &&& q.mask &&& (r.bits ^^^ q.bits) ≠ 0#32) → r ∈ rows → rowMatches w r = true →
      rows.find? (rowMatches w) = some r
  | [], _, hr, _ => by simp at hr
  | q :: rest, hp, hr, hm => by
    rw [List.pairwise_cons] at hp
    by_cases hq : rowMatches w q = true
    · rw [List.find?_cons_of_pos hq]
      rcases List.mem_cons.mp hr with rfl | hr
      · rfl
      · exact absurd (matches_agree (eq_of_beq hq) (eq_of_beq hm)) (hp.1 r hr)
    · rw [List.find?_cons_of_neg hq]
      rcases List.mem_cons.mp hr with rfl | hr
      · exact absurd hm hq
      · exact find_of_matches hp.2 hr hm

/-- The lookup gives the row a word matches (rule R76). -/
theorem lookup_of_matches {w : Word} {r : TableRow} (hr : r ∈ decodeTable) (hm : w &&& r.mask = r.bits) :
    lookupByEncoding w = some r :=
  find_of_matches rows_disjoint hr (by simp [rowMatches, hm])

/-- A word that matches a row decodes by it (rule R76). -/
theorem decodeWord_of_matches {w : Word} {r : TableRow} (hr : r ∈ decodeTable) (hm : w &&& r.mask = r.bits) :
    decodeWord w = .ok (r.build w) := by
  simp only [decodeWord, lookup_of_matches hr hm]

/-- What a decoded word says: some row matches it, and the instruction is that row's. -/
theorem matches_of_decodeWord {w : Word} {i : Instr} (h : decodeWord w = .ok i) :
    ∃ r ∈ decodeTable, w &&& r.mask = r.bits ∧ i = r.build w := by
  unfold decodeWord at h
  split at h
  · rename_i r hr
    refine ⟨r, List.mem_of_find?_eq_some hr, ?_, ?_⟩
    · simpa [rowMatches] using List.find?_some hr
    · exact (Except.ok.inj h).symm
  · cases h

/-- What an undecodable word says: no row matches it (rule R77). -/
theorem no_match_of_decodeWord {w : Word} {e : DecodeError} (h : decodeWord w = .error e) :
    e = .noMatchingRow w ∧ ∀ r ∈ decodeTable, w &&& r.mask ≠ r.bits := by
  unfold decodeWord at h
  split at h
  · cases h
  · rename_i hn
    refine ⟨(Except.error.inj h).symm, fun r hr hm => ?_⟩
    rw [lookup_of_matches hr hm] at hn
    cases hn

/-! ### Bytes -/

/-- The word whose bytes are a word's bytes is that word (20_memory.md rule R52). -/
theorem wordOfBytes_bytesOfWord (w : Word) :
    wordOfBytes (w.extractLsb' 0 8) (w.extractLsb' 8 8) (w.extractLsb' 16 8) (w.extractLsb' 24 8) = w := by
  unfold wordOfBytes
  apply BitVec.eq_of_getLsbD_eq
  intro i hi
  simp only [BitVec.getLsbD_append, BitVec.getLsbD_extractLsb']
  interval_cases i <;> simp

/-- Decoding a word's bytes is decoding the word. -/
theorem decode_bytesOfWord (w : Word) (rest : List Byte) :
    decode (bytesOfWord w ++ rest) = (decodeWord w).map (·, rest) := by
  simp only [decode, bytesOfWord, List.cons_append, List.nil_append, wordOfBytes_bytesOfWord]
  cases decodeWord w <;> rfl

/-! ### Sign extension of the low bits of a value that is in their range -/

theorem signExtend_low (imm : Word) (k : Nat) (h0 : 0 < k) (hk : k ≤ 32) (hlo : -2 ^ (k - 1) ≤ imm.toInt)
    (hhi : imm.toInt < 2 ^ (k - 1)) : (imm.extractLsb' 0 k).signExtend 32 = imm := by
  apply BitVec.eq_of_toInt_eq
  rw [BitVec.toInt_signExtend_of_le hk]
  have e : imm.extractLsb' 0 k = imm.setWidth k := by
    apply BitVec.eq_of_getLsbD_eq
    intro i hi
    simp [hi]
  have h2 : (imm.toNat : Int).bmod (2 ^ k) = imm.toInt.bmod (2 ^ k) := by
    rw [BitVec.toInt_eq_toNat_bmod imm]
    exact (Int.bmod_bmod_of_dvd (pow_dvd_pow 2 hk)).symm
  have h3 : ((2 ^ k : Nat) : Int) = 2 * 2 ^ (k - 1) := by
    obtain ⟨j, rfl⟩ := Nat.exists_eq_succ_of_ne_zero h0.ne'
    simp [pow_succ]
    ring
  rw [e, BitVec.toInt_setWidth, h2]
  apply Int.bmod_eq_of_le <;> rw [h3] <;> omega

/-- An even value has bit 0 clear. -/
theorem bit_zero_of_even (imm : Word) (h : imm.toInt % 2 = 0) : imm.getLsbD 0 = false := by
  have h1 := BitVec.toInt_eq_toNat_cond imm
  have h2 : imm.toNat % 2 = 0 := by split at h1 <;> omega
  simp [BitVec.getLsbD, Nat.testBit_zero, h2]

/-- A multiple of 4096 has its low twelve bits clear. -/
theorem low_bits_of_multiple (imm : Word) (h : imm.toNat % 4096 = 0) (i : Nat) (hi : i < 12) : imm.getLsbD i = false := by
  have : (imm.toNat % 2 ^ 12).testBit i = (decide (i < 12) && imm.toNat.testBit i) := Nat.testBit_mod_two_pow _ _ _
  rw [show imm.toNat % 2 ^ 12 = 0 from h] at this
  show imm.toNat.testBit i = false
  simpa [hi] using this.symm

/-! ### What the format decoders read from a re-encoded word (rule R69) -/

section Fields

variable (op : BitVec 7) (f3 : BitVec 3) (f7 : BitVec 7) (rd rs1 rs2 rs3 : RegIdx) (imm : Word)

@[simp] theorem rdOf_encodeR : rdOf (encodeR op f3 f7 rd rs1 rs2) = rd := by
  unfold rdOf encodeR
  apply BitVec.eq_of_getLsbD_eq
  intro i hi
  simp only [BitVec.getLsbD_append, BitVec.getLsbD_extractLsb']
  interval_cases i <;> simp

@[simp] theorem rs1Of_encodeR : rs1Of (encodeR op f3 f7 rd rs1 rs2) = rs1 := by
  unfold rs1Of encodeR
  apply BitVec.eq_of_getLsbD_eq
  intro i hi
  simp only [BitVec.getLsbD_append, BitVec.getLsbD_extractLsb']
  interval_cases i <;> simp

@[simp] theorem rs2Of_encodeR : rs2Of (encodeR op f3 f7 rd rs1 rs2) = rs2 := by
  unfold rs2Of encodeR
  apply BitVec.eq_of_getLsbD_eq
  intro i hi
  simp only [BitVec.getLsbD_append, BitVec.getLsbD_extractLsb']
  interval_cases i <;> simp

@[simp] theorem shamtOf_encodeR : shamtOf (encodeR op f3 f7 rd rs1 rs2) = rs2 := by
  unfold shamtOf encodeR
  apply BitVec.eq_of_getLsbD_eq
  intro i hi
  simp only [BitVec.getLsbD_append, BitVec.getLsbD_extractLsb']
  interval_cases i <;> simp

@[simp] theorem rdOf_encodeI : rdOf (encodeI op f3 rd rs1 imm) = rd := by
  unfold rdOf encodeI
  apply BitVec.eq_of_getLsbD_eq
  intro i hi
  simp only [BitVec.getLsbD_append, BitVec.getLsbD_extractLsb']
  interval_cases i <;> simp

@[simp] theorem rs1Of_encodeI : rs1Of (encodeI op f3 rd rs1 imm) = rs1 := by
  unfold rs1Of encodeI
  apply BitVec.eq_of_getLsbD_eq
  intro i hi
  simp only [BitVec.getLsbD_append, BitVec.getLsbD_extractLsb']
  interval_cases i <;> simp

@[simp] theorem rs1Of_encodeS : rs1Of (encodeS op f3 rs1 rs2 imm) = rs1 := by
  unfold rs1Of encodeS
  apply BitVec.eq_of_getLsbD_eq
  intro i hi
  simp only [BitVec.getLsbD_append, BitVec.getLsbD_extractLsb']
  interval_cases i <;> simp

@[simp] theorem rs2Of_encodeS : rs2Of (encodeS op f3 rs1 rs2 imm) = rs2 := by
  unfold rs2Of encodeS
  apply BitVec.eq_of_getLsbD_eq
  intro i hi
  simp only [BitVec.getLsbD_append, BitVec.getLsbD_extractLsb']
  interval_cases i <;> simp

@[simp] theorem rs1Of_encodeB : rs1Of (encodeB op f3 rs1 rs2 imm) = rs1 := by
  unfold rs1Of encodeB
  apply BitVec.eq_of_getLsbD_eq
  intro i hi
  simp only [BitVec.getLsbD_append, BitVec.getLsbD_extractLsb']
  interval_cases i <;> simp

@[simp] theorem rs2Of_encodeB : rs2Of (encodeB op f3 rs1 rs2 imm) = rs2 := by
  unfold rs2Of encodeB
  apply BitVec.eq_of_getLsbD_eq
  intro i hi
  simp only [BitVec.getLsbD_append, BitVec.getLsbD_extractLsb']
  interval_cases i <;> simp

@[simp] theorem rdOf_encodeU : rdOf (encodeU op rd imm) = rd := by
  unfold rdOf encodeU
  apply BitVec.eq_of_getLsbD_eq
  intro i hi
  simp only [BitVec.getLsbD_append, BitVec.getLsbD_extractLsb']
  interval_cases i <;> simp

@[simp] theorem rdOf_encodeJ : rdOf (encodeJ op rd imm) = rd := by
  unfold rdOf encodeJ
  apply BitVec.eq_of_getLsbD_eq
  intro i hi
  simp only [BitVec.getLsbD_append, BitVec.getLsbD_extractLsb']
  interval_cases i <;> simp

@[simp] theorem rdOf_encodeFR4 : rdOf (encodeFR4 op rd rs1 rs2 rs3) = rd := by
  unfold rdOf encodeFR4
  apply BitVec.eq_of_getLsbD_eq
  intro i hi
  simp only [BitVec.getLsbD_append, BitVec.getLsbD_extractLsb']
  interval_cases i <;> simp

@[simp] theorem rs1Of_encodeFR4 : rs1Of (encodeFR4 op rd rs1 rs2 rs3) = rs1 := by
  unfold rs1Of encodeFR4
  apply BitVec.eq_of_getLsbD_eq
  intro i hi
  simp only [BitVec.getLsbD_append, BitVec.getLsbD_extractLsb']
  interval_cases i <;> simp

@[simp] theorem rs2Of_encodeFR4 : rs2Of (encodeFR4 op rd rs1 rs2 rs3) = rs2 := by
  unfold rs2Of encodeFR4
  apply BitVec.eq_of_getLsbD_eq
  intro i hi
  simp only [BitVec.getLsbD_append, BitVec.getLsbD_extractLsb']
  interval_cases i <;> simp

@[simp] theorem rs3Of_encodeFR4 : rs3Of (encodeFR4 op rd rs1 rs2 rs3) = rs3 := by
  unfold rs3Of encodeFR4
  apply BitVec.eq_of_getLsbD_eq
  intro i hi
  simp only [BitVec.getLsbD_append, BitVec.getLsbD_extractLsb']
  interval_cases i <;> simp

/-- The compared bits of a re-encoded word do not depend on its operands (rule R74). -/
theorem mask_encodeR : encodeR op f3 f7 rd rs1 rs2 &&& 0xFE00707F#32 = encodeR op f3 f7 0#5 0#5 0#5 := by
  unfold encodeR
  apply BitVec.eq_of_getLsbD_eq
  intro i hi
  simp only [BitVec.getLsbD_and, BitVec.getLsbD_append]
  interval_cases i <;> simp

theorem mask_encodeI : encodeI op f3 rd rs1 imm &&& 0x0000707F#32 = encodeI op f3 0#5 0#5 0#32 := by
  unfold encodeI
  apply BitVec.eq_of_getLsbD_eq
  intro i hi
  simp only [BitVec.getLsbD_and, BitVec.getLsbD_append, BitVec.getLsbD_extractLsb']
  interval_cases i <;> simp

theorem mask_encodeS : encodeS op f3 rs1 rs2 imm &&& 0x0000707F#32 = encodeS op f3 0#5 0#5 0#32 := by
  unfold encodeS
  apply BitVec.eq_of_getLsbD_eq
  intro i hi
  simp only [BitVec.getLsbD_and, BitVec.getLsbD_append, BitVec.getLsbD_extractLsb']
  interval_cases i <;> simp

theorem mask_encodeB : encodeB op f3 rs1 rs2 imm &&& 0x0000707F#32 = encodeB op f3 0#5 0#5 0#32 := by
  unfold encodeB
  apply BitVec.eq_of_getLsbD_eq
  intro i hi
  simp only [BitVec.getLsbD_and, BitVec.getLsbD_append, BitVec.getLsbD_extractLsb']
  interval_cases i <;> simp

theorem mask_encodeU : encodeU op rd imm &&& 0x0000007F#32 = encodeU op 0#5 0#32 := by
  unfold encodeU
  apply BitVec.eq_of_getLsbD_eq
  intro i hi
  simp only [BitVec.getLsbD_and, BitVec.getLsbD_append, BitVec.getLsbD_extractLsb']
  interval_cases i <;> simp

theorem mask_encodeJ : encodeJ op rd imm &&& 0x0000007F#32 = encodeJ op 0#5 0#32 := by
  unfold encodeJ
  apply BitVec.eq_of_getLsbD_eq
  intro i hi
  simp only [BitVec.getLsbD_and, BitVec.getLsbD_append, BitVec.getLsbD_extractLsb']
  interval_cases i <;> simp

theorem mask_encodeFR4 : encodeFR4 op rd rs1 rs2 rs3 &&& 0x0000007F#32 = encodeFR4 op 0#5 0#5 0#5 0#5 := by
  unfold encodeFR4
  apply BitVec.eq_of_getLsbD_eq
  intro i hi
  simp only [BitVec.getLsbD_and, BitVec.getLsbD_append]
  interval_cases i <;> simp

theorem immI_encodeI (h : immIsS12 imm = true) : immI (encodeI op f3 rd rs1 imm) = imm := by
  simp only [immIsS12, Bool.and_eq_true, decide_eq_true_eq] at h
  conv => rhs; rw [← signExtend_low imm 12 (by omega) (by omega) (by omega) (by omega)]
  unfold immI encodeI
  congr 1
  apply BitVec.eq_of_getLsbD_eq
  intro i hi
  simp only [BitVec.getLsbD_append, BitVec.getLsbD_extractLsb']
  interval_cases i <;> simp

theorem immS_encodeS (h : immIsS12 imm = true) : immS (encodeS op f3 rs1 rs2 imm) = imm := by
  simp only [immIsS12, Bool.and_eq_true, decide_eq_true_eq] at h
  conv => rhs; rw [← signExtend_low imm 12 (by omega) (by omega) (by omega) (by omega)]
  unfold immS encodeS
  congr 1
  apply BitVec.eq_of_getLsbD_eq
  intro i hi
  simp only [BitVec.getLsbD_append, BitVec.getLsbD_extractLsb']
  interval_cases i <;> simp

theorem immB_encodeB (h : immIsB13 imm = true) : immB (encodeB op f3 rs1 rs2 imm) = imm := by
  simp only [immIsB13, Bool.and_eq_true, decide_eq_true_eq, beq_iff_eq] at h
  have h0 := bit_zero_of_even imm h.1.1
  conv => rhs; rw [← signExtend_low imm 13 (by omega) (by omega) (by omega) (by omega)]
  unfold immB encodeB
  congr 1
  apply BitVec.eq_of_getLsbD_eq
  intro i hi
  simp only [BitVec.getLsbD_append, BitVec.getLsbD_extractLsb']
  interval_cases i <;> simp_all

theorem immJ_encodeJ (h : immIsJ21 imm = true) : immJ (encodeJ op rd imm) = imm := by
  simp only [immIsJ21, Bool.and_eq_true, decide_eq_true_eq, beq_iff_eq] at h
  have h0 := bit_zero_of_even imm h.1.1
  conv => rhs; rw [← signExtend_low imm 21 (by omega) (by omega) (by omega) (by omega)]
  unfold immJ encodeJ
  congr 1
  apply BitVec.eq_of_getLsbD_eq
  intro i hi
  simp only [BitVec.getLsbD_append, BitVec.getLsbD_extractLsb']
  interval_cases i <;> simp_all

theorem immU_encodeU (h : immIsU20 imm = true) : immU (encodeU op rd imm) = imm := by
  simp only [immIsU20, beq_iff_eq] at h
  have h0 := low_bits_of_multiple imm h
  unfold immU encodeU
  apply BitVec.eq_of_getLsbD_eq
  intro i hi
  simp only [BitVec.getLsbD_append, BitVec.getLsbD_extractLsb']
  by_cases hi' : i < 12
  · have := h0 i hi'
    interval_cases i <;> simp_all
  · interval_cases i <;> simp_all

end Fields

end Sys2Proof
end

