-- ==== Sys2Proof/Laws/State.lean ====
section
/-! SUPPORT. One lemma per field per update of the state, and what each register access reads after each update, so that no
later proof unfolds a record update. -/

namespace Sys2Proof.Machine

variable (s : State)

/-! ### writeInt -/

@[simp] theorem State.writeInt_f (i : RegIdx) (v : Word) : (s.writeInt i v).f = s.f := rfl
@[simp] theorem State.writeInt_pc (i : RegIdx) (v : Word) : (s.writeInt i v).pc = s.pc := rfl
@[simp] theorem State.writeInt_mem (i : RegIdx) (v : Word) : (s.writeInt i v).mem = s.mem := rfl
@[simp] theorem State.writeInt_outcome (i : RegIdx) (v : Word) : (s.writeInt i v).outcome = s.outcome := rfl

/-! ### writeFloat -/

@[simp] theorem State.writeFloat_x (i : RegIdx) (v : Word) : (s.writeFloat i v).x = s.x := rfl
@[simp] theorem State.writeFloat_pc (i : RegIdx) (v : Word) : (s.writeFloat i v).pc = s.pc := rfl
@[simp] theorem State.writeFloat_mem (i : RegIdx) (v : Word) : (s.writeFloat i v).mem = s.mem := rfl
@[simp] theorem State.writeFloat_outcome (i : RegIdx) (v : Word) : (s.writeFloat i v).outcome = s.outcome := rfl

/-! ### setByte -/

@[simp] theorem State.setByte_x (a : Word) (v : Byte) : (s.setByte a v).x = s.x := rfl
@[simp] theorem State.setByte_f (a : Word) (v : Byte) : (s.setByte a v).f = s.f := rfl
@[simp] theorem State.setByte_pc (a : Word) (v : Byte) : (s.setByte a v).pc = s.pc := rfl
@[simp] theorem State.setByte_outcome (a : Word) (v : Byte) : (s.setByte a v).outcome = s.outcome := rfl

/-! ### memWrite1 -/

@[simp] theorem State.memWrite1_x (a : Word) (v : Byte) : (s.memWrite1 a v).x = s.x := rfl
@[simp] theorem State.memWrite1_f (a : Word) (v : Byte) : (s.memWrite1 a v).f = s.f := rfl
@[simp] theorem State.memWrite1_pc (a : Word) (v : Byte) : (s.memWrite1 a v).pc = s.pc := rfl
@[simp] theorem State.memWrite1_outcome (a : Word) (v : Byte) : (s.memWrite1 a v).outcome = s.outcome := rfl

/-! ### memWrite2 -/

@[simp] theorem State.memWrite2_x (a : Word) (v : Half) : (s.memWrite2 a v).x = s.x := rfl
@[simp] theorem State.memWrite2_f (a : Word) (v : Half) : (s.memWrite2 a v).f = s.f := rfl
@[simp] theorem State.memWrite2_pc (a : Word) (v : Half) : (s.memWrite2 a v).pc = s.pc := rfl
@[simp] theorem State.memWrite2_outcome (a : Word) (v : Half) : (s.memWrite2 a v).outcome = s.outcome := rfl

/-! ### memWrite4 -/

@[simp] theorem State.memWrite4_x (a : Word) (v : Word) : (s.memWrite4 a v).x = s.x := rfl
@[simp] theorem State.memWrite4_f (a : Word) (v : Word) : (s.memWrite4 a v).f = s.f := rfl
@[simp] theorem State.memWrite4_pc (a : Word) (v : Word) : (s.memWrite4 a v).pc = s.pc := rfl
@[simp] theorem State.memWrite4_outcome (a : Word) (v : Word) : (s.memWrite4 a v).outcome = s.outcome := rfl

/-! ### storeByte -/

@[simp] theorem State.storeByte_x (a v : Word) : (s.storeByte a v).x = s.x := rfl
@[simp] theorem State.storeByte_f (a v : Word) : (s.storeByte a v).f = s.f := rfl
@[simp] theorem State.storeByte_pc (a v : Word) : (s.storeByte a v).pc = s.pc := rfl
@[simp] theorem State.storeByte_outcome (a v : Word) : (s.storeByte a v).outcome = s.outcome := rfl

/-! ### storeHalf -/

@[simp] theorem State.storeHalf_x (a v : Word) : (s.storeHalf a v).x = s.x := rfl
@[simp] theorem State.storeHalf_f (a v : Word) : (s.storeHalf a v).f = s.f := rfl
@[simp] theorem State.storeHalf_pc (a v : Word) : (s.storeHalf a v).pc = s.pc := rfl
@[simp] theorem State.storeHalf_outcome (a v : Word) : (s.storeHalf a v).outcome = s.outcome := rfl

/-! ### storeWord -/

@[simp] theorem State.storeWord_x (a v : Word) : (s.storeWord a v).x = s.x := rfl
@[simp] theorem State.storeWord_f (a v : Word) : (s.storeWord a v).f = s.f := rfl
@[simp] theorem State.storeWord_pc (a v : Word) : (s.storeWord a v).pc = s.pc := rfl
@[simp] theorem State.storeWord_outcome (a v : Word) : (s.storeWord a v).outcome = s.outcome := rfl

/-! ### retire -/

@[simp] theorem State.retire_x (t : Word) : (s.retire t).x = s.x := rfl
@[simp] theorem State.retire_f (t : Word) : (s.retire t).f = s.f := rfl
@[simp] theorem State.retire_mem (t : Word) : (s.retire t).mem = s.mem := rfl
@[simp] theorem State.retire_pc (t : Word) : (s.retire t).pc = t := rfl
@[simp] theorem State.retire_outcome (t : Word) : (s.retire t).outcome = .retired := rfl

/-! ### advance -/

@[simp] theorem State.advance_x : (s.advance).x = s.x := rfl
@[simp] theorem State.advance_f : (s.advance).f = s.f := rfl
@[simp] theorem State.advance_mem : (s.advance).mem = s.mem := rfl
@[simp] theorem State.advance_pc : s.advance.pc = s.pc + 4#32 := rfl
@[simp] theorem State.advance_outcome : s.advance.outcome = .retired := rfl

/-! ### raise -/

@[simp] theorem State.raise_x (o : StepOutcome) : (s.raise o).x = s.x := rfl
@[simp] theorem State.raise_f (o : StepOutcome) : (s.raise o).f = s.f := rfl
@[simp] theorem State.raise_pc (o : StepOutcome) : (s.raise o).pc = s.pc := rfl
@[simp] theorem State.raise_mem (o : StepOutcome) : (s.raise o).mem = s.mem := rfl
@[simp] theorem State.raise_outcome (o : StepOutcome) : (s.raise o).outcome = o := rfl

/-! ### resumeAt -/

@[simp] theorem State.resumeAt_x (t : Word) : (s.resumeAt t).x = s.x := rfl
@[simp] theorem State.resumeAt_f (t : Word) : (s.resumeAt t).f = s.f := rfl
@[simp] theorem State.resumeAt_mem (t : Word) : (s.resumeAt t).mem = s.mem := rfl
@[simp] theorem State.resumeAt_pc (t : Word) : (s.resumeAt t).pc = t := rfl
@[simp] theorem State.resumeAt_outcome (t : Word) : (s.resumeAt t).outcome = .retired := rfl

/-! ### What the accessors depend on -/

theorem State.readInt_congr {s t : State} (h : t.x = s.x) (i : RegIdx) : t.readInt i = s.readInt i := by
  unfold State.readInt; simp only [h]

theorem State.readFloat_congr {s t : State} (h : t.f = s.f) (i : RegIdx) : t.readFloat i = s.readFloat i := by
  unfold State.readFloat; simp only [h]

theorem State.byteAt_congr {s t : State} (h : t.mem = s.mem) (a : Word) : t.byteAt a = s.byteAt a := by
  unfold State.byteAt; rw [h]

@[simp] theorem State.readFloat_writeInt (i : RegIdx) (v : Word) (j : RegIdx) : (s.writeInt i v).readFloat j = s.readFloat j := State.readFloat_congr rfl j
@[simp] theorem State.byteAt_writeInt (i : RegIdx) (v : Word) (b : Word) : (s.writeInt i v).byteAt b = s.byteAt b := State.byteAt_congr rfl b
@[simp] theorem State.readInt_writeFloat (i : RegIdx) (v : Word) (j : RegIdx) : (s.writeFloat i v).readInt j = s.readInt j := State.readInt_congr rfl j
@[simp] theorem State.byteAt_writeFloat (i : RegIdx) (v : Word) (b : Word) : (s.writeFloat i v).byteAt b = s.byteAt b := State.byteAt_congr rfl b
@[simp] theorem State.readInt_setByte (a : Word) (v : Byte) (j : RegIdx) : (s.setByte a v).readInt j = s.readInt j := State.readInt_congr rfl j
@[simp] theorem State.readFloat_setByte (a : Word) (v : Byte) (j : RegIdx) : (s.setByte a v).readFloat j = s.readFloat j := State.readFloat_congr rfl j
@[simp] theorem State.readInt_memWrite1 (a : Word) (v : Byte) (j : RegIdx) : (s.memWrite1 a v).readInt j = s.readInt j := State.readInt_congr rfl j
@[simp] theorem State.readFloat_memWrite1 (a : Word) (v : Byte) (j : RegIdx) : (s.memWrite1 a v).readFloat j = s.readFloat j := State.readFloat_congr rfl j
@[simp] theorem State.readInt_memWrite2 (a : Word) (v : Half) (j : RegIdx) : (s.memWrite2 a v).readInt j = s.readInt j := State.readInt_congr rfl j
@[simp] theorem State.readFloat_memWrite2 (a : Word) (v : Half) (j : RegIdx) : (s.memWrite2 a v).readFloat j = s.readFloat j := State.readFloat_congr rfl j
@[simp] theorem State.readInt_memWrite4 (a : Word) (v : Word) (j : RegIdx) : (s.memWrite4 a v).readInt j = s.readInt j := State.readInt_congr rfl j
@[simp] theorem State.readFloat_memWrite4 (a : Word) (v : Word) (j : RegIdx) : (s.memWrite4 a v).readFloat j = s.readFloat j := State.readFloat_congr rfl j
@[simp] theorem State.readInt_storeByte (a v : Word) (j : RegIdx) : (s.storeByte a v).readInt j = s.readInt j := State.readInt_congr rfl j
@[simp] theorem State.readFloat_storeByte (a v : Word) (j : RegIdx) : (s.storeByte a v).readFloat j = s.readFloat j := State.readFloat_congr rfl j
@[simp] theorem State.readInt_storeHalf (a v : Word) (j : RegIdx) : (s.storeHalf a v).readInt j = s.readInt j := State.readInt_congr rfl j
@[simp] theorem State.readFloat_storeHalf (a v : Word) (j : RegIdx) : (s.storeHalf a v).readFloat j = s.readFloat j := State.readFloat_congr rfl j
@[simp] theorem State.readInt_storeWord (a v : Word) (j : RegIdx) : (s.storeWord a v).readInt j = s.readInt j := State.readInt_congr rfl j
@[simp] theorem State.readFloat_storeWord (a v : Word) (j : RegIdx) : (s.storeWord a v).readFloat j = s.readFloat j := State.readFloat_congr rfl j
@[simp] theorem State.readInt_retire (t : Word) (j : RegIdx) : (s.retire t).readInt j = s.readInt j := State.readInt_congr rfl j
@[simp] theorem State.readFloat_retire (t : Word) (j : RegIdx) : (s.retire t).readFloat j = s.readFloat j := State.readFloat_congr rfl j
@[simp] theorem State.byteAt_retire (t : Word) (b : Word) : (s.retire t).byteAt b = s.byteAt b := State.byteAt_congr rfl b
@[simp] theorem State.readInt_advance (j : RegIdx) : (s.advance).readInt j = s.readInt j := State.readInt_congr rfl j
@[simp] theorem State.readFloat_advance (j : RegIdx) : (s.advance).readFloat j = s.readFloat j := State.readFloat_congr rfl j
@[simp] theorem State.byteAt_advance (b : Word) : (s.advance).byteAt b = s.byteAt b := State.byteAt_congr rfl b
@[simp] theorem State.readInt_raise (o : StepOutcome) (j : RegIdx) : (s.raise o).readInt j = s.readInt j := State.readInt_congr rfl j
@[simp] theorem State.readFloat_raise (o : StepOutcome) (j : RegIdx) : (s.raise o).readFloat j = s.readFloat j := State.readFloat_congr rfl j
@[simp] theorem State.byteAt_raise (o : StepOutcome) (b : Word) : (s.raise o).byteAt b = s.byteAt b := State.byteAt_congr rfl b
@[simp] theorem State.readInt_resumeAt (t : Word) (j : RegIdx) : (s.resumeAt t).readInt j = s.readInt j := State.readInt_congr rfl j
@[simp] theorem State.readFloat_resumeAt (t : Word) (j : RegIdx) : (s.resumeAt t).readFloat j = s.readFloat j := State.readFloat_congr rfl j
@[simp] theorem State.byteAt_resumeAt (t : Word) (b : Word) : (s.resumeAt t).byteAt b = s.byteAt b := State.byteAt_congr rfl b

/-! ### Registers: a read after a write (rules R22, R26) -/

@[simp] theorem State.readInt_zero : s.readInt 0#5 = 0#32 := rfl

/-- A read of an integer register after a write: the value written where the index is the one written and is not 0. -/
@[simp] theorem State.readInt_writeInt (i : RegIdx) (v : Word) (j : RegIdx) :
    (s.writeInt i v).readInt j = if j = i ∧ j ≠ 0#5 then v else s.readInt j := by
  unfold State.readInt State.writeInt
  by_cases hj : j = 0#5
  · simp [hj]
  by_cases hi : i = 0#5
  · have : j ≠ i := fun h => hj (h.trans hi)
    simp [hi, hj]
  · simp only [hi, hj, if_false, Vector.getElem_set]
    have h1 : i.toNat ≠ 0 := fun h => hi (BitVec.eq_of_toNat_eq h)
    have h2 : j.toNat ≠ 0 := fun h => hj (BitVec.eq_of_toNat_eq h)
    have h3 : (i.toNat - 1 = j.toNat - 1) ↔ j = i := by
      constructor
      · intro h
        exact BitVec.eq_of_toNat_eq (by omega)
      · rintro rfl; rfl
    by_cases h : j = i <;> simp [h3, h, hi, hj]

/-- A write of x0 changes nothing at all (rule R22). -/
@[simp] theorem State.writeInt_zero (v : Word) : s.writeInt 0#5 v = s := rfl

/-- A read of a floating-point register after a write. -/
@[simp] theorem State.readFloat_writeFloat (i : RegIdx) (v : Word) (j : RegIdx) :
    (s.writeFloat i v).readFloat j = if j = i then v else s.readFloat j := by
  unfold State.readFloat State.writeFloat
  have h : (i.toNat = j.toNat) ↔ j = i :=
    ⟨fun h => BitVec.eq_of_toNat_eq h.symm, fun h => by rw [h]⟩
  simp only [Vector.getElem_set, h]

end Sys2Proof.Machine
end

