-- ==== Sys2Proof/Laws/Memory.lean ====
section
/-! SUPPORT. Memory: a read after a write, and that every memory operation keeps the canonical form. -/

namespace Sys2Proof.Machine

/-! ### A read after a write -/

/-- A write leaves every byte at another address alone, whatever form the list has. -/
theorem Memory.read_write_of_ne (m : Memory) (a : Nat) (v : Byte) (c : Nat) (h : c ≠ a) :
    (m.write a v).read c = m.read c := by
  induction m with
  | nil => by_cases hv : v = Config.unlistedByte <;> simp [Memory.write, Memory.read, hv, h.symm]
  | cons p rest ih =>
    obtain ⟨k, b⟩ := p
    simp only [Memory.write]
    by_cases hka : k < a
    · simp [hka, Memory.read, ih]
    · by_cases hk : k = a
      · subst hk
        by_cases hv : v = Config.unlistedByte <;> simp [hv, Memory.read, h.symm]
      · by_cases hv : v = Config.unlistedByte <;> simp [hka, hk, hv, Memory.read, h.symm]

/-- A byte read after a write is the byte written at the address written, and every other byte is as before. -/
theorem Memory.read_write (m : Memory) (a : Nat) (v : Byte) (c : Nat) (hm : m.wf = true) :
    (m.write a v).read c = if c = a then v else m.read c := by
  have key : ∀ (m : Memory) (low : Option Nat), Memory.wfAbove low m = true →
      (m.write a v).read c = if c = a then v else m.read c := by
    intro m
    induction m with
    | nil =>
      intro _ _
      by_cases hv : v = Config.unlistedByte <;> by_cases hc : c = a
      · simp [Memory.write, Memory.read, hv]
      · simp [Memory.write, Memory.read, hv]
      · simp [Memory.write, Memory.read, hv, hc]
      · simp [Memory.write, Memory.read, hv, hc, Ne.symm hc]
    | cons p rest ih =>
      obtain ⟨k, b⟩ := p
      intro low hwf
      have hrest : Memory.wfAbove (some k) rest = true := by
        simp only [Memory.wfAbove, Bool.and_eq_true] at hwf; exact hwf.2
      have hbelow : ∀ d, d ≤ k → Memory.read rest d = Config.unlistedByte := by
        intro d hd
        have : ∀ (r : Memory) (l : Nat), d ≤ l → Memory.wfAbove (some l) r = true →
            Memory.read r d = Config.unlistedByte := by
          intro r
          induction r with
          | nil => intros; rfl
          | cons q r ihr =>
            obtain ⟨k', b'⟩ := q
            intro l hl hw
            simp only [Memory.wfAbove, Bool.and_eq_true, decide_eq_true_eq] at hw
            have hlk := hw.1.1.1
            simp only [Memory.read]
            rw [if_neg (by omega)]
            exact ihr k' (by omega) hw.2
        exact this rest k hd hrest
      simp only [Memory.write]
      by_cases hka : k < a
      · rw [if_pos hka]
        simp only [Memory.read, ih _ hrest]
        by_cases hc : c = a
        · subst hc; rw [if_neg (by omega)]; simp
        · simp [hc]
      · rw [if_neg hka]
        by_cases hk : k = a
        · subst hk
          by_cases hv : v = Config.unlistedByte
          · by_cases hc : c = k
            · subst hc; simp [hv, hbelow c le_rfl]
            · simp [hv, hc, Memory.read, Ne.symm hc]
          · by_cases hc : c = k
            · subst hc; simp [hv, Memory.read]
            · simp [hv, hc, Memory.read, Ne.symm hc]
        · simp only [if_neg hk]
          have hak : a < k := by omega
          by_cases hv : v = Config.unlistedByte
          · by_cases hc : c = a
            · subst hc; simp [hv, Memory.read, Ne.symm hak.ne, hbelow c hak.le]
            · simp [hv, hc]
          · by_cases hc : c = a
            · subst hc; simp [hv, Memory.read]
            · simp [hv, hc, Memory.read, Ne.symm hc]
  exact key m none hm

/-! ### The canonical form is kept -/

theorem Memory.wfAbove_write (a : Nat) (ha : a < 2 ^ 32) (v : Byte) (m : Memory) :
    ∀ low : Option Nat, (∀ l, low = some l → l < a) → Memory.wfAbove low m = true →
      Memory.wfAbove low (m.write a v) = true := by
  induction m with
  | nil =>
    intro low hl _
    by_cases hv : v = Config.unlistedByte
    · simp [Memory.write, hv, Memory.wfAbove]
    · cases low <;> simp_all [Memory.write, Memory.wfAbove]
  | cons p rest ih =>
    obtain ⟨k, b⟩ := p
    intro low hl hwf
    have hrest : Memory.wfAbove (some k) rest = true := by
      simp only [Memory.wfAbove, Bool.and_eq_true] at hwf; exact hwf.2
    have hhead := hwf
    simp only [Memory.wfAbove, Bool.and_eq_true] at hhead
    simp only [Memory.write]
    by_cases hka : k < a
    · rw [if_pos hka]
      simp only [Memory.wfAbove, Bool.and_eq_true]
      exact ⟨hhead.1, ih (some k) (by rintro l ⟨⟩; exact hka) hrest⟩
    · rw [if_neg hka]
      have htail : Memory.wfAbove (some a) (if k = a then rest else (k, b) :: rest) = true := by
        by_cases hk : k = a
        · subst hk; simpa using hrest
        · simp only [if_neg hk, Memory.wfAbove, Bool.and_eq_true, decide_eq_true_eq]
          exact ⟨⟨⟨by omega, by simpa using hhead.1.1.2⟩, hhead.1.2⟩, hrest⟩
      have hlow : ∀ r : Memory, Memory.wfAbove (some a) r = true → Memory.wfAbove low r = true := by
        intro r hr
        cases r with
        | nil => rfl
        | cons q r =>
          obtain ⟨k', b'⟩ := q
          simp only [Memory.wfAbove, Bool.and_eq_true, decide_eq_true_eq] at hr ⊢
          refine ⟨⟨⟨?_, hr.1.1.2⟩, hr.1.2⟩, hr.2⟩
          cases low with
          | none => rfl
          | some l => simpa using (hl l rfl).trans hr.1.1.1
      by_cases hv : v = Config.unlistedByte
      · simpa [hv] using hlow _ htail
      · simp only [if_neg hv, Memory.wfAbove, Bool.and_eq_true, decide_eq_true_eq]
        refine ⟨⟨⟨?_, ha⟩, by simpa using hv⟩, htail⟩
        cases low with
        | none => rfl
        | some l => simpa using hl l rfl

/-- Writing one byte keeps the canonical form. -/
theorem Memory.wf_write (m : Memory) (a : Nat) (ha : a < 2 ^ 32) (v : Byte) (hm : m.wf = true) :
    (m.write a v).wf = true :=
  Memory.wfAbove_write a ha v m none (by simp) hm

theorem State.reset_mem_wf : State.reset.mem.wf = true := rfl

@[simp] theorem State.setByte_mem (s : State) (a : Word) (v : Byte) :
    (s.setByte a v).mem = s.mem.write a.toNat v := rfl

theorem State.setByte_wf (s : State) (a : Word) (v : Byte) (h : s.mem.wf = true) : (s.setByte a v).mem.wf = true :=
  Memory.wf_write _ _ a.isLt v h

theorem State.memWrite1_wf (s : State) (a : Word) (v : Byte) (h : s.mem.wf = true) : (s.memWrite1 a v).mem.wf = true :=
  s.setByte_wf a v h

theorem State.memWrite2_wf (s : State) (a : Word) (v : Half) (h : s.mem.wf = true) : (s.memWrite2 a v).mem.wf = true :=
  State.setByte_wf _ _ _ (State.setByte_wf _ _ _ h)

theorem State.memWrite4_wf (s : State) (a : Word) (v : Word) (h : s.mem.wf = true) : (s.memWrite4 a v).mem.wf = true :=
  State.setByte_wf _ _ _ (State.setByte_wf _ _ _ (State.setByte_wf _ _ _ (State.setByte_wf _ _ _ h)))

theorem State.storeByte_wf (s : State) (a v : Word) (h : s.mem.wf = true) : (s.storeByte a v).mem.wf = true :=
  s.memWrite1_wf a _ h

theorem State.storeHalf_wf (s : State) (a v : Word) (h : s.mem.wf = true) : (s.storeHalf a v).mem.wf = true :=
  s.memWrite2_wf a _ h

theorem State.storeWord_wf (s : State) (a v : Word) (h : s.mem.wf = true) : (s.storeWord a v).mem.wf = true :=
  s.memWrite4_wf a _ h

/-! ### One byte of the state after a write of one byte -/

/-- `M[b]` after `M[a] <- v`. -/
theorem State.byteAt_setByte (s : State) (a : Word) (v : Byte) (b : Word) (h : s.mem.wf = true) :
    (s.setByte a v).byteAt b = if b = a then v else s.byteAt b := by
  unfold State.byteAt
  rw [State.setByte_mem, Memory.read_write _ _ _ _ h]
  simp only [BitVec.toNat_inj]

/-- `M[b]` for another address after `M[a] <- v`. -/
theorem State.byteAt_setByte_of_ne (s : State) (a : Word) (v : Byte) (b : Word) (h : b ≠ a) :
    (s.setByte a v).byteAt b = s.byteAt b := by
  unfold State.byteAt
  rw [State.setByte_mem, Memory.read_write_of_ne _ _ _ _ (fun e => h (BitVec.eq_of_toNat_eq e))]

/-- A one-byte store leaves every other byte alone (rule R44). -/
theorem State.byteAt_storeByte_of_ne (s : State) (a v b : Word) (h : b ≠ a) :
    (s.storeByte a v).byteAt b = s.byteAt b :=
  s.byteAt_setByte_of_ne a _ b h

/-- A two-byte store leaves every byte but a and a + 1 alone (rule R44). -/
theorem State.byteAt_storeHalf_of_ne (s : State) (a v b : Word) (h0 : b ≠ a) (h1 : b ≠ a + 1#32) :
    (s.storeHalf a v).byteAt b = s.byteAt b := by
  unfold State.storeHalf State.memWrite2
  rw [State.byteAt_setByte_of_ne _ _ _ _ h1, State.byteAt_setByte_of_ne _ _ _ _ h0]

/-- A four-byte store leaves every byte but a .. a + 3 alone (rule R44). -/
theorem State.byteAt_storeWord_of_ne (s : State) (a v b : Word) (h0 : b ≠ a) (h1 : b ≠ a + 1#32) (h2 : b ≠ a + 2#32)
    (h3 : b ≠ a + 3#32) : (s.storeWord a v).byteAt b = s.byteAt b := by
  unfold State.storeWord State.memWrite4
  rw [State.byteAt_setByte_of_ne _ _ _ _ h3, State.byteAt_setByte_of_ne _ _ _ _ h2,
    State.byteAt_setByte_of_ne _ _ _ _ h1, State.byteAt_setByte_of_ne _ _ _ _ h0]

/-- MemRead(a, 4) after MemWrite(a, 4, v) is v, at every address, the top of memory included (rules R43, R44, R46). -/
theorem State.memRead4_memWrite4 (s : State) (a v : Word) (h : s.mem.wf = true) : (s.memWrite4 a v).memRead4 a = v := by
  have n01 : a ≠ a + 1#32 := by bv_omega
  have n02 : a ≠ a + 2#32 := by bv_omega
  have n03 : a ≠ a + 3#32 := by bv_omega
  have n12 : a + 1#32 ≠ a + 2#32 := by bv_omega
  have n13 : a + 1#32 ≠ a + 3#32 := by bv_omega
  have n23 : a + 2#32 ≠ a + 3#32 := by bv_omega
  have w1 := s.setByte_wf a (v.extractLsb' 0 8) h
  have w2 := State.setByte_wf _ (a + 1#32) (v.extractLsb' 8 8) w1
  have w3 := State.setByte_wf _ (a + 2#32) (v.extractLsb' 16 8) w2
  unfold State.memRead4 State.memWrite4
  simp only [State.byteAt_setByte _ _ _ _ h, State.byteAt_setByte _ _ _ _ w1, State.byteAt_setByte _ _ _ _ w2,
    State.byteAt_setByte _ _ _ _ w3, n01, n02, n03, n12, n13, n23, if_true, if_false]
  ext i hi
  simp only [BitVec.getElem_append, BitVec.getElem_extractLsb']
  split
  · simp [← BitVec.getLsbD_eq_getElem]
  · split
    · rw [← BitVec.getLsbD_eq_getElem]; congr 1; omega
    · split <;> (rw [← BitVec.getLsbD_eq_getElem]; congr 1; omega)

end Sys2Proof.Machine
end

