-- ==== Sys2Proof/Laws/PerInstr.lean ====
section
/-! SUPPORT. Per instruction: the word encode writes for it matches a row of the decode table, and that row's format decoder
reads the instruction back (30_encoding.md rules R69, R70, R76). -/

namespace Sys2Proof.Laws.EncodeMatches

/-- The encoded word of a well-formed instruction matches a row that reads the instruction back. -/
def Statement (i : Instr) : Prop :=
  i.wellFormed = true → ∃ r ∈ decodeTable, encode i &&& r.mask = r.bits ∧ r.build (encode i) = i

theorem add (rd rs1 rs2 : RegIdx) : Statement (.add rd rs1 rs2) := fun _ =>
  ⟨_, List.mem_of_getElem? (i := 0) rfl, (mask_encodeR _ _ _ _ _ _).trans (by decide), by simp [encode]⟩

theorem sub (rd rs1 rs2 : RegIdx) : Statement (.sub rd rs1 rs2) := fun _ =>
  ⟨_, List.mem_of_getElem? (i := 1) rfl, (mask_encodeR _ _ _ _ _ _).trans (by decide), by simp [encode]⟩

theorem sll (rd rs1 rs2 : RegIdx) : Statement (.sll rd rs1 rs2) := fun _ =>
  ⟨_, List.mem_of_getElem? (i := 2) rfl, (mask_encodeR _ _ _ _ _ _).trans (by decide), by simp [encode]⟩

theorem slt (rd rs1 rs2 : RegIdx) : Statement (.slt rd rs1 rs2) := fun _ =>
  ⟨_, List.mem_of_getElem? (i := 3) rfl, (mask_encodeR _ _ _ _ _ _).trans (by decide), by simp [encode]⟩

theorem sltu (rd rs1 rs2 : RegIdx) : Statement (.sltu rd rs1 rs2) := fun _ =>
  ⟨_, List.mem_of_getElem? (i := 4) rfl, (mask_encodeR _ _ _ _ _ _).trans (by decide), by simp [encode]⟩

theorem xor (rd rs1 rs2 : RegIdx) : Statement (.xor rd rs1 rs2) := fun _ =>
  ⟨_, List.mem_of_getElem? (i := 5) rfl, (mask_encodeR _ _ _ _ _ _).trans (by decide), by simp [encode]⟩

theorem srl (rd rs1 rs2 : RegIdx) : Statement (.srl rd rs1 rs2) := fun _ =>
  ⟨_, List.mem_of_getElem? (i := 6) rfl, (mask_encodeR _ _ _ _ _ _).trans (by decide), by simp [encode]⟩

theorem sra (rd rs1 rs2 : RegIdx) : Statement (.sra rd rs1 rs2) := fun _ =>
  ⟨_, List.mem_of_getElem? (i := 7) rfl, (mask_encodeR _ _ _ _ _ _).trans (by decide), by simp [encode]⟩

theorem or (rd rs1 rs2 : RegIdx) : Statement (.or rd rs1 rs2) := fun _ =>
  ⟨_, List.mem_of_getElem? (i := 8) rfl, (mask_encodeR _ _ _ _ _ _).trans (by decide), by simp [encode]⟩

theorem and (rd rs1 rs2 : RegIdx) : Statement (.and rd rs1 rs2) := fun _ =>
  ⟨_, List.mem_of_getElem? (i := 9) rfl, (mask_encodeR _ _ _ _ _ _).trans (by decide), by simp [encode]⟩

theorem addi (rd rs1 : RegIdx) (imm : Word) : Statement (.addi rd rs1 imm) := fun h =>
  ⟨_, List.mem_of_getElem? (i := 10) rfl, (mask_encodeI _ _ _ _ _).trans (by decide), by simp [encode, immI_encodeI _ _ _ _ _ h]⟩

theorem slti (rd rs1 : RegIdx) (imm : Word) : Statement (.slti rd rs1 imm) := fun h =>
  ⟨_, List.mem_of_getElem? (i := 11) rfl, (mask_encodeI _ _ _ _ _).trans (by decide), by simp [encode, immI_encodeI _ _ _ _ _ h]⟩

theorem sltiu (rd rs1 : RegIdx) (imm : Word) : Statement (.sltiu rd rs1 imm) := fun h =>
  ⟨_, List.mem_of_getElem? (i := 12) rfl, (mask_encodeI _ _ _ _ _).trans (by decide), by simp [encode, immI_encodeI _ _ _ _ _ h]⟩

theorem xori (rd rs1 : RegIdx) (imm : Word) : Statement (.xori rd rs1 imm) := fun h =>
  ⟨_, List.mem_of_getElem? (i := 13) rfl, (mask_encodeI _ _ _ _ _).trans (by decide), by simp [encode, immI_encodeI _ _ _ _ _ h]⟩

theorem ori (rd rs1 : RegIdx) (imm : Word) : Statement (.ori rd rs1 imm) := fun h =>
  ⟨_, List.mem_of_getElem? (i := 14) rfl, (mask_encodeI _ _ _ _ _).trans (by decide), by simp [encode, immI_encodeI _ _ _ _ _ h]⟩

theorem andi (rd rs1 : RegIdx) (imm : Word) : Statement (.andi rd rs1 imm) := fun h =>
  ⟨_, List.mem_of_getElem? (i := 15) rfl, (mask_encodeI _ _ _ _ _).trans (by decide), by simp [encode, immI_encodeI _ _ _ _ _ h]⟩

theorem slli (rd rs1 : RegIdx) (shamt : BitVec 5) : Statement (.slli rd rs1 shamt) := fun _ =>
  ⟨_, List.mem_of_getElem? (i := 16) rfl, (mask_encodeR _ _ _ _ _ _).trans (by decide), by simp [encode]⟩

theorem srli (rd rs1 : RegIdx) (shamt : BitVec 5) : Statement (.srli rd rs1 shamt) := fun _ =>
  ⟨_, List.mem_of_getElem? (i := 17) rfl, (mask_encodeR _ _ _ _ _ _).trans (by decide), by simp [encode]⟩

theorem srai (rd rs1 : RegIdx) (shamt : BitVec 5) : Statement (.srai rd rs1 shamt) := fun _ =>
  ⟨_, List.mem_of_getElem? (i := 18) rfl, (mask_encodeR _ _ _ _ _ _).trans (by decide), by simp [encode]⟩

theorem mul (rd rs1 rs2 : RegIdx) : Statement (.mul rd rs1 rs2) := fun _ =>
  ⟨_, List.mem_of_getElem? (i := 19) rfl, (mask_encodeR _ _ _ _ _ _).trans (by decide), by simp [encode]⟩

theorem mulh (rd rs1 rs2 : RegIdx) : Statement (.mulh rd rs1 rs2) := fun _ =>
  ⟨_, List.mem_of_getElem? (i := 20) rfl, (mask_encodeR _ _ _ _ _ _).trans (by decide), by simp [encode]⟩

theorem mulhsu (rd rs1 rs2 : RegIdx) : Statement (.mulhsu rd rs1 rs2) := fun _ =>
  ⟨_, List.mem_of_getElem? (i := 21) rfl, (mask_encodeR _ _ _ _ _ _).trans (by decide), by simp [encode]⟩

theorem mulhu (rd rs1 rs2 : RegIdx) : Statement (.mulhu rd rs1 rs2) := fun _ =>
  ⟨_, List.mem_of_getElem? (i := 22) rfl, (mask_encodeR _ _ _ _ _ _).trans (by decide), by simp [encode]⟩

theorem div (rd rs1 rs2 : RegIdx) : Statement (.div rd rs1 rs2) := fun _ =>
  ⟨_, List.mem_of_getElem? (i := 23) rfl, (mask_encodeR _ _ _ _ _ _).trans (by decide), by simp [encode]⟩

theorem divu (rd rs1 rs2 : RegIdx) : Statement (.divu rd rs1 rs2) := fun _ =>
  ⟨_, List.mem_of_getElem? (i := 24) rfl, (mask_encodeR _ _ _ _ _ _).trans (by decide), by simp [encode]⟩

theorem rem (rd rs1 rs2 : RegIdx) : Statement (.rem rd rs1 rs2) := fun _ =>
  ⟨_, List.mem_of_getElem? (i := 25) rfl, (mask_encodeR _ _ _ _ _ _).trans (by decide), by simp [encode]⟩

theorem remu (rd rs1 rs2 : RegIdx) : Statement (.remu rd rs1 rs2) := fun _ =>
  ⟨_, List.mem_of_getElem? (i := 26) rfl, (mask_encodeR _ _ _ _ _ _).trans (by decide), by simp [encode]⟩

theorem lb (rd rs1 : RegIdx) (imm : Word) : Statement (.lb rd rs1 imm) := fun h =>
  ⟨_, List.mem_of_getElem? (i := 27) rfl, (mask_encodeI _ _ _ _ _).trans (by decide), by simp [encode, immI_encodeI _ _ _ _ _ h]⟩

theorem lh (rd rs1 : RegIdx) (imm : Word) : Statement (.lh rd rs1 imm) := fun h =>
  ⟨_, List.mem_of_getElem? (i := 28) rfl, (mask_encodeI _ _ _ _ _).trans (by decide), by simp [encode, immI_encodeI _ _ _ _ _ h]⟩

theorem lw (rd rs1 : RegIdx) (imm : Word) : Statement (.lw rd rs1 imm) := fun h =>
  ⟨_, List.mem_of_getElem? (i := 29) rfl, (mask_encodeI _ _ _ _ _).trans (by decide), by simp [encode, immI_encodeI _ _ _ _ _ h]⟩

theorem lbu (rd rs1 : RegIdx) (imm : Word) : Statement (.lbu rd rs1 imm) := fun h =>
  ⟨_, List.mem_of_getElem? (i := 30) rfl, (mask_encodeI _ _ _ _ _).trans (by decide), by simp [encode, immI_encodeI _ _ _ _ _ h]⟩

theorem lhu (rd rs1 : RegIdx) (imm : Word) : Statement (.lhu rd rs1 imm) := fun h =>
  ⟨_, List.mem_of_getElem? (i := 31) rfl, (mask_encodeI _ _ _ _ _).trans (by decide), by simp [encode, immI_encodeI _ _ _ _ _ h]⟩

theorem sb (rs1 rs2 : RegIdx) (imm : Word) : Statement (.sb rs1 rs2 imm) := fun h =>
  ⟨_, List.mem_of_getElem? (i := 32) rfl, (mask_encodeS _ _ _ _ _).trans (by decide), by simp [encode, immS_encodeS _ _ _ _ _ h]⟩

theorem sh (rs1 rs2 : RegIdx) (imm : Word) : Statement (.sh rs1 rs2 imm) := fun h =>
  ⟨_, List.mem_of_getElem? (i := 33) rfl, (mask_encodeS _ _ _ _ _).trans (by decide), by simp [encode, immS_encodeS _ _ _ _ _ h]⟩

theorem sw (rs1 rs2 : RegIdx) (imm : Word) : Statement (.sw rs1 rs2 imm) := fun h =>
  ⟨_, List.mem_of_getElem? (i := 34) rfl, (mask_encodeS _ _ _ _ _).trans (by decide), by simp [encode, immS_encodeS _ _ _ _ _ h]⟩

theorem beq (rs1 rs2 : RegIdx) (imm : Word) : Statement (.beq rs1 rs2 imm) := fun h =>
  ⟨_, List.mem_of_getElem? (i := 35) rfl, (mask_encodeB _ _ _ _ _).trans (by decide), by simp [encode, immB_encodeB _ _ _ _ _ h]⟩

theorem bne (rs1 rs2 : RegIdx) (imm : Word) : Statement (.bne rs1 rs2 imm) := fun h =>
  ⟨_, List.mem_of_getElem? (i := 36) rfl, (mask_encodeB _ _ _ _ _).trans (by decide), by simp [encode, immB_encodeB _ _ _ _ _ h]⟩

theorem blt (rs1 rs2 : RegIdx) (imm : Word) : Statement (.blt rs1 rs2 imm) := fun h =>
  ⟨_, List.mem_of_getElem? (i := 37) rfl, (mask_encodeB _ _ _ _ _).trans (by decide), by simp [encode, immB_encodeB _ _ _ _ _ h]⟩

theorem bge (rs1 rs2 : RegIdx) (imm : Word) : Statement (.bge rs1 rs2 imm) := fun h =>
  ⟨_, List.mem_of_getElem? (i := 38) rfl, (mask_encodeB _ _ _ _ _).trans (by decide), by simp [encode, immB_encodeB _ _ _ _ _ h]⟩

theorem bltu (rs1 rs2 : RegIdx) (imm : Word) : Statement (.bltu rs1 rs2 imm) := fun h =>
  ⟨_, List.mem_of_getElem? (i := 39) rfl, (mask_encodeB _ _ _ _ _).trans (by decide), by simp [encode, immB_encodeB _ _ _ _ _ h]⟩

theorem bgeu (rs1 rs2 : RegIdx) (imm : Word) : Statement (.bgeu rs1 rs2 imm) := fun h =>
  ⟨_, List.mem_of_getElem? (i := 40) rfl, (mask_encodeB _ _ _ _ _).trans (by decide), by simp [encode, immB_encodeB _ _ _ _ _ h]⟩

theorem jal (rd : RegIdx) (imm : Word) : Statement (.jal rd imm) := fun h =>
  ⟨_, List.mem_of_getElem? (i := 41) rfl, (mask_encodeJ _ _ _).trans (by decide), by simp [encode, immJ_encodeJ _ _ _ h]⟩

theorem jalr (rd rs1 : RegIdx) (imm : Word) : Statement (.jalr rd rs1 imm) := fun h =>
  ⟨_, List.mem_of_getElem? (i := 42) rfl, (mask_encodeI _ _ _ _ _).trans (by decide), by simp [encode, immI_encodeI _ _ _ _ _ h]⟩

theorem lui (rd : RegIdx) (imm : Word) : Statement (.lui rd imm) := fun h =>
  ⟨_, List.mem_of_getElem? (i := 43) rfl, (mask_encodeU _ _ _).trans (by decide), by simp [encode, immU_encodeU _ _ _ h]⟩

theorem auipc (rd : RegIdx) (imm : Word) : Statement (.auipc rd imm) := fun h =>
  ⟨_, List.mem_of_getElem? (i := 44) rfl, (mask_encodeU _ _ _).trans (by decide), by simp [encode, immU_encodeU _ _ _ h]⟩

theorem ecall : Statement (.ecall) := fun _ =>
  ⟨_, List.mem_of_getElem? (i := 45) rfl, by decide, rfl⟩

theorem ebreak : Statement (.ebreak) := fun _ =>
  ⟨_, List.mem_of_getElem? (i := 46) rfl, by decide, rfl⟩

theorem fence : Statement (.fence) := fun _ =>
  ⟨_, List.mem_of_getElem? (i := 47) rfl, by decide, rfl⟩

theorem fenceI : Statement (.fenceI) := fun _ =>
  ⟨_, List.mem_of_getElem? (i := 48) rfl, by decide, rfl⟩

theorem fmaddS (rd rs1 rs2 rs3 : RegIdx) : Statement (.fmaddS rd rs1 rs2 rs3) := fun _ =>
  ⟨_, List.mem_of_getElem? (i := 49) rfl, (mask_encodeFR4 _ _ _ _ _).trans (by decide), by simp [encode]⟩

theorem fmsubS (rd rs1 rs2 rs3 : RegIdx) : Statement (.fmsubS rd rs1 rs2 rs3) := fun _ =>
  ⟨_, List.mem_of_getElem? (i := 50) rfl, (mask_encodeFR4 _ _ _ _ _).trans (by decide), by simp [encode]⟩

theorem fnmsubS (rd rs1 rs2 rs3 : RegIdx) : Statement (.fnmsubS rd rs1 rs2 rs3) := fun _ =>
  ⟨_, List.mem_of_getElem? (i := 51) rfl, (mask_encodeFR4 _ _ _ _ _).trans (by decide), by simp [encode]⟩

theorem fnmaddS (rd rs1 rs2 rs3 : RegIdx) : Statement (.fnmaddS rd rs1 rs2 rs3) := fun _ =>
  ⟨_, List.mem_of_getElem? (i := 52) rfl, (mask_encodeFR4 _ _ _ _ _).trans (by decide), by simp [encode]⟩

end Sys2Proof.Laws.EncodeMatches
end

