-- ==== Sys2Proof/Laws/Step.lean ====
section
/-! SUPPORT. What a step can do, said once, and what each shared operation of the meanings answers. -/

namespace Sys2Proof.Machine

/-! ### The shared operations -/

/-- `finishInt` answers next, with x[rd] written and the pc advanced. -/
theorem State.finishInt_next (s : State) (rd : RegIdx) (v : Word) :
    s.finishInt rd v = .next (s.writeInt rd v).advance := rfl

/-- `finishFloat` answers next, with f[rd] written and the pc advanced. -/
theorem State.finishFloat_next (s : State) (rd : RegIdx) (v : Word) :
    s.finishFloat rd v = .next (s.writeFloat rd v).advance := rfl

/-- A taken branch goes to its target. -/
theorem State.branch_taken (s : State) (imm : Word) : s.branch true imm = .next (s.retire (s.pc + imm)) := rfl

/-- A branch not taken advances. -/
theorem State.branch_not_taken (s : State) (imm : Word) : s.branch false imm = .next s.advance := rfl

/-! ### Fetching -/

/-- The fetched word is the one its four bytes make, lowest address first (20_memory.md rule R52). -/
theorem State.fetchWord_eq (s : State) :
    s.fetchWord = wordOfBytes (s.byteAt s.pc) (s.byteAt (s.pc + 1#32)) (s.byteAt (s.pc + 2#32)) (s.byteAt (s.pc + 3#32)) :=
  rfl

/-- The fetch depends on pc and memory alone. -/
theorem State.fetchWord_congr {s t : State} (hp : t.pc = s.pc) (hm : t.mem = s.mem) : t.fetchWord = s.fetchWord := by
  unfold State.fetchWord State.memRead4 State.byteAt
  rw [hp, hm]

/-- A placed word is what the next step fetches. -/
theorem State.fetchWord_placeWord (s : State) (w : Word) (h : s.mem.wf = true) : (s.placeWord w).fetchWord = w :=
  s.memRead4_memWrite4 s.pc w h

/-! ### What a step can do -/

/-- A running core executes the word it fetched. -/
theorem step_of_decodeWord {s : State} {i : Instr} (hs : s.outcome = .retired) (h : decodeWord s.fetchWord = .ok i) :
    step s = exec i s := by
  simp only [step, State.stepWith, hs, State.runFetched, h]

/-- A running core that fetches a word of no row ends the step with InvalidInstruction. -/
theorem step_of_invalid {s : State} {e : DecodeError} (hs : s.outcome = .retired) (h : decodeWord s.fetchWord = .error e) :
    step s = .next (s.raise (.invalidInstruction s.pc s.fetchWord)) := by
  simp only [step, State.stepWith, hs, State.runFetched, h]

/-- A core whose last step did not retire does not step. -/
theorem step_of_ended {s : State} (hs : s.outcome ≠ .retired) : step s = .fault (.runEnded s.outcome) := by
  unfold step State.stepWith
  split <;> simp_all

/-- If a step answers next, the core was running, and it executed the instruction it fetched or ended with
InvalidInstruction. -/
theorem step_cases {s t : State} (h : step s = .next t) :
    s.outcome = .retired ∧
    ((∃ i, decodeWord s.fetchWord = .ok i ∧ exec i s = .next t) ∨
     (∃ e, decodeWord s.fetchWord = .error e ∧ t = s.raise (.invalidInstruction s.pc s.fetchWord))) := by
  by_cases hs : s.outcome = .retired
  · refine ⟨hs, ?_⟩
    cases hd : decodeWord s.fetchWord with
    | ok i => rw [step_of_decodeWord hs hd] at h; exact .inl ⟨i, rfl, h⟩
    | error e =>
      rw [step_of_invalid hs hd] at h
      injection h with h
      exact .inr ⟨e, rfl, h.symm⟩
  · rw [step_of_ended hs] at h
    cases h

end Sys2Proof.Machine
end

