-- ==== Sys2Proof/Tests/Slice0.lean ====
section
/-! SUPPORT. The model's own tests: what WellFormed refuses, one word per constructor written out from the spec's encoding, one
or two steps per instruction with the results of spec/95_test_vectors.md (or of the rule's own example), the reset state,
and for every statement with hypotheses a state and operands that meet them. -/

namespace Sys2Proof.Tests

open Sys2Proof.Machine

set_option Elab.async false

/-! ### WellFormed: each check refuses an ill-formed term (30_encoding.md rules R63 to R67) -/

theorem test_wellFormed_refuses_i_immediate_out_of_range :
    (Instr.addi 1#5 2#5 2048#32).wellFormed = false ∧ (Instr.lw 1#5 2#5 (-2049#32)).wellFormed = false ∧
    (Instr.jalr 1#5 2#5 2048#32).wellFormed = false := by decide
theorem test_wellFormed_refuses_s_immediate_out_of_range :
    (Instr.sw 1#5 2#5 2048#32).wellFormed = false ∧ (Instr.sb 1#5 2#5 (-2049#32)).wellFormed = false := by decide
theorem test_wellFormed_refuses_b_immediate_odd_or_out_of_range :
    (Instr.beq 1#5 2#5 3#32).wellFormed = false ∧ (Instr.bne 1#5 2#5 4096#32).wellFormed = false ∧
    (Instr.bgeu 1#5 2#5 (-4098#32)).wellFormed = false := by decide
theorem test_wellFormed_refuses_u_immediate_with_low_bits :
    (Instr.lui 1#5 0x00001001#32).wellFormed = false ∧ (Instr.auipc 1#5 0x00000800#32).wellFormed = false := by decide
theorem test_wellFormed_refuses_j_immediate_odd_or_out_of_range :
    (Instr.jal 1#5 5#32).wellFormed = false ∧ (Instr.jal 1#5 1048576#32).wellFormed = false ∧
    (Instr.jal 1#5 (-1048578#32)).wellFormed = false := by decide

/-! ### Decoding: one word per constructor, field by field from the formats (rules R62 to R68) and the values of rule R75 -/

theorem test_decode_register :
    decodeWord 0b0000000_01010_10001_000_00011_0110011#32 = .ok (.add 3#5 17#5 10#5) ∧
    decodeWord 0b0100000_01111_10010_000_00100_0110011#32 = .ok (.sub 4#5 18#5 15#5) ∧
    decodeWord 0b0000000_10100_10011_001_00101_0110011#32 = .ok (.sll 5#5 19#5 20#5) ∧
    decodeWord 0b0000000_11001_10100_010_00110_0110011#32 = .ok (.slt 6#5 20#5 25#5) ∧
    decodeWord 0b0000000_11110_10101_011_00111_0110011#32 = .ok (.sltu 7#5 21#5 30#5) ∧
    decodeWord 0b0000000_00011_10110_100_01000_0110011#32 = .ok (.xor 8#5 22#5 3#5) ∧
    decodeWord 0b0000000_01000_10111_101_01001_0110011#32 = .ok (.srl 9#5 23#5 8#5) ∧
    decodeWord 0b0100000_01101_11000_101_01010_0110011#32 = .ok (.sra 10#5 24#5 13#5) ∧
    decodeWord 0b0000000_10010_11001_110_01011_0110011#32 = .ok (.or 11#5 25#5 18#5) ∧
    decodeWord 0b0000000_10111_11010_111_01100_0110011#32 = .ok (.and 12#5 26#5 23#5) := by decide +kernel

theorem test_decode_immediate :
    decodeWord 0b100000000000_10001_000_00011_0010011#32 = .ok (.addi 3#5 17#5 (-2048#32)) ∧
    decodeWord 0b011111111111_10010_010_00100_0010011#32 = .ok (.slti 4#5 18#5 (2047#32)) ∧
    decodeWord 0b111111111101_10011_011_00101_0010011#32 = .ok (.sltiu 5#5 19#5 (-3#32)) ∧
    decodeWord 0b010101010101_10100_100_00110_0010011#32 = .ok (.xori 6#5 20#5 (1365#32)) ∧
    decodeWord 0b101010101010_10101_110_00111_0010011#32 = .ok (.ori 7#5 21#5 (-1366#32)) ∧
    decodeWord 0b000000000001_10110_111_01000_0010011#32 = .ok (.andi 8#5 22#5 (1#32)) ∧
    decodeWord 0b0000000_01000_10111_001_01001_0010011#32 = .ok (.slli 9#5 23#5 8#5) ∧
    decodeWord 0b0000000_01101_11000_101_01010_0010011#32 = .ok (.srli 10#5 24#5 13#5) ∧
    decodeWord 0b0100000_10010_11001_101_01011_0010011#32 = .ok (.srai 11#5 25#5 18#5) := by decide +kernel

theorem test_decode_muldiv :
    decodeWord 0b0000001_01010_10001_000_00011_0110011#32 = .ok (.mul 3#5 17#5 10#5) ∧
    decodeWord 0b0000001_01111_10010_001_00100_0110011#32 = .ok (.mulh 4#5 18#5 15#5) ∧
    decodeWord 0b0000001_10100_10011_010_00101_0110011#32 = .ok (.mulhsu 5#5 19#5 20#5) ∧
    decodeWord 0b0000001_11001_10100_011_00110_0110011#32 = .ok (.mulhu 6#5 20#5 25#5) ∧
    decodeWord 0b0000001_11110_10101_100_00111_0110011#32 = .ok (.div 7#5 21#5 30#5) ∧
    decodeWord 0b0000001_00011_10110_101_01000_0110011#32 = .ok (.divu 8#5 22#5 3#5) ∧
    decodeWord 0b0000001_01000_10111_110_01001_0110011#32 = .ok (.rem 9#5 23#5 8#5) ∧
    decodeWord 0b0000001_01101_11000_111_01010_0110011#32 = .ok (.remu 10#5 24#5 13#5) := by decide +kernel

theorem test_decode_loads :
    decodeWord 0b100000000000_10001_000_00011_0000011#32 = .ok (.lb 3#5 17#5 (-2048#32)) ∧
    decodeWord 0b011111111111_10010_001_00100_0000011#32 = .ok (.lh 4#5 18#5 (2047#32)) ∧
    decodeWord 0b111111111101_10011_010_00101_0000011#32 = .ok (.lw 5#5 19#5 (-3#32)) ∧
    decodeWord 0b010101010101_10100_100_00110_0000011#32 = .ok (.lbu 6#5 20#5 (1365#32)) ∧
    decodeWord 0b101010101010_10101_101_00111_0000011#32 = .ok (.lhu 7#5 21#5 (-1366#32)) := by decide +kernel

theorem test_decode_stores :
    decodeWord 0b1000000_01010_10001_000_00000_0100011#32 = .ok (.sb 17#5 10#5 (-2048#32)) ∧
    decodeWord 0b0111111_01111_10010_001_11111_0100011#32 = .ok (.sh 18#5 15#5 (2047#32)) ∧
    decodeWord 0b1111111_10100_10011_010_11100_0100011#32 = .ok (.sw 19#5 20#5 (-4#32)) := by decide +kernel

theorem test_decode_branches :
    decodeWord 0b1_000000_01010_10001_000_0000_0_1100011#32 = .ok (.beq 17#5 10#5 (-4096#32)) ∧
    decodeWord 0b0_111111_01111_10010_001_1111_1_1100011#32 = .ok (.bne 18#5 15#5 (4094#32)) ∧
    decodeWord 0b1_111111_10100_10011_100_1110_1_1100011#32 = .ok (.blt 19#5 20#5 (-4#32)) ∧
    decodeWord 0b0_000000_11001_10100_101_0000_1_1100011#32 = .ok (.bge 20#5 25#5 (2048#32)) ∧
    decodeWord 0b0_101010_11110_10101_110_1011_0_1100011#32 = .ok (.bltu 21#5 30#5 (1366#32)) ∧
    decodeWord 0b1_010101_00011_10110_111_0100_1_1100011#32 = .ok (.bgeu 22#5 3#5 (-1368#32)) := by decide +kernel

theorem test_decode_jumps :
    decodeWord 0b1_0000000001_1_00000010_00011_1101111#32 = .ok (.jal 3#5 (-1038334#32)) ∧
    decodeWord 0b011111111111_10010_000_00100_1100111#32 = .ok (.jalr 4#5 18#5 (2047#32)) := by decide +kernel

theorem test_decode_upper :
    decodeWord 0b00010010001101000101_00011_0110111#32 = .ok (.lui 3#5 0x12345000#32) ∧
    decodeWord 0b11111111111111111111_00100_0010111#32 = .ok (.auipc 4#5 0xFFFFF000#32) := by decide +kernel

theorem test_decode_system :
    decodeWord 0b000000000000_00000_000_00000_1110011#32 = .ok (.ecall) ∧
    decodeWord 0b000000000001_00000_000_00000_1110011#32 = .ok (.ebreak) ∧
    decodeWord 0b000011111111_00000_000_00000_0001111#32 = .ok (.fence) ∧
    decodeWord 0b000011111111_00000_001_00000_0001111#32 = .ok (.fenceI) := by decide +kernel

theorem test_decode_fused :
    decodeWord 0b11101_11_01010_10001_111_00011_1000011#32 = .ok (.fmaddS 3#5 17#5 10#5 29#5) ∧
    decodeWord 0b11100_00_01111_10010_000_00100_1000111#32 = .ok (.fmsubS 4#5 18#5 15#5 28#5) ∧
    decodeWord 0b11011_01_10100_10011_101_00101_1001011#32 = .ok (.fnmsubS 5#5 19#5 20#5 27#5) ∧
    decodeWord 0b11010_10_11001_10100_001_00110_1001111#32 = .ok (.fnmaddS 6#5 20#5 25#5 26#5) := by decide +kernel

/-- The format decoders on words whatever instruction they are, from 95_test_vectors.md E1: I, S, B, U and J immediates. -/
theorem test_immediates_of_any_word :
    [0x12345678#32, 0xDEADBEEF#32, 0x8000007F#32, 0xFFFFFFFF#32].map (fun w => [immI w, immS w, immB w, immU w, immJ w]) =
      [[0x00000123#32, 0x0000012C#32, 0x0000012C#32, 0x12345000#32, 0x00045922#32],
       [0xFFFFFDEA#32, 0xFFFFFDFD#32, 0xFFFFFDFC#32, 0xDEADB000#32, 0xFFFDB5EA#32],
       [0xFFFFF800#32, 0xFFFFF800#32, 0xFFFFF000#32, 0x80000000#32, 0xFFF00000#32],
       [0xFFFFFFFF#32, 0xFFFFFFFF#32, 0xFFFFFFFE#32, 0xFFFFF000#32, 0xFFFFFFFE#32]] := by decide +kernel
theorem test_registers_of_any_word :
    (rdOf 0xDEADBEEF#32, rs1Of 0xDEADBEEF#32, rs2Of 0xDEADBEEF#32, rs3Of 0xDEADBEEF#32) = (29#5, 27#5, 10#5, 27#5) := by
  decide
/-- Words that match no row, from 95_test_vectors.md 2.1 and rule R77: an unused opcode, `mret`, a CSR read, ecall with rs1 = 1,
a shift with bit 25 set, an unused funct3. -/
theorem test_decode_rejects_invalid_words :
    [0x00000000#32, 0xFFFFFFFF#32, 0x30200073#32, 0xC0002573#32, 0x00008073#32, 0x02009193#32, 0x00003003#32].all
      (fun w => decide (decodeWord w = .error (.noMatchingRow w))) = true := by decide +kernel
theorem test_decode_rejects_three_bytes : decode [0x13#8, 0x00#8, 0x00#8] = .error .fewerThanFourBytes := by decide
theorem test_decode_reads_little_endian_bytes :
    decode [0xB3#8, 0x81#8, 0x20#8, 0x00#8, 0x99#8] = .ok (.add 3#5 1#5 2#5, [0x99#8]) := by decide +kernel
theorem test_decodeTableWord :
    decodeTableWord 32 0x002081B3 = some (.add 3#5 1#5 2#5) ∧ decodeTableWord 32 0x00100073 = some .ebreak ∧
    decodeTableWord 32 0x00200073 = none := by decide +kernel

/-! ### One step: helpers -/

/-- A machine at pc = 0x00001000 with some integer registers, some floating-point registers and some bytes set. -/
def machine (ints floats : List (RegIdx × Word)) (bytes : List (Word × Byte)) : State :=
  { State.reset with pc := 0x00001000#32 }.sessionAct
    (ints.map (fun (i, v) => SessionWrite.int i v) ++ floats.map (fun (i, v) => SessionWrite.float i v) ++
      bytes.map fun (a, v) => SessionWrite.byte a v)

/-- The step of `s` with a word placed at its pc, seen through `view` (none where it is no next state). -/
def after {α : Type} (s : State) (w : Word) (view : State → α) : Option α :=
  match step (s.withFetchWord 32 w.toNat) with
  | .next t => some (view t)
  | .fault _ => none
  | .refused _ => none

/-- The step of a state is a next state of which `view` holds. -/
def stepsTo (s : State) (view : State → Bool) : Bool :=
  match step s with
  | .next t => view t
  | .fault _ => false
  | .refused _ => false

theorem exists_of_stepsTo {s : State} {view : State → Bool} (h : stepsTo s view = true) :
    ∃ t, step s = .next t ∧ view t = true := by
  unfold stepsTo at h
  split at h
  · exact ⟨_, ‹_›, h⟩
  · exact absurd h (by decide)
  · exact absurd h (by decide)

/-! ### One step per instruction -/

theorem test_add_wraps : after (machine [(1#5, 0x7FFFFFFF#32), (2#5, 0x00000001#32)] [] []) 0x002081B3#32 (fun t => (t.readInt 3#5, t.pc)) =
    some (0x80000000#32, 0x00001004#32) := by decide +kernel
theorem test_sub_borrows : after (machine [(1#5, 0x00000000#32), (2#5, 0x00000001#32)] [] []) 0x402081B3#32 (fun t => (t.readInt 3#5, t.pc)) =
    some (0xFFFFFFFF#32, 0x00001004#32) := by decide +kernel
theorem test_sll_by_31_of_63 : after (machine [(1#5, 0x00000001#32), (2#5, 0x0000003F#32)] [] []) 0x002091B3#32 (fun t => (t.readInt 3#5, t.pc)) =
    some (0x80000000#32, 0x00001004#32) := by decide +kernel
theorem test_slt_is_signed : after (machine [(1#5, 0xFFFFFFFF#32), (2#5, 0x00000001#32)] [] []) 0x0020A1B3#32 (fun t => (t.readInt 3#5, t.pc)) =
    some (0x00000001#32, 0x00001004#32) := by decide +kernel
theorem test_sltu_is_unsigned : after (machine [(1#5, 0xFFFFFFFF#32), (2#5, 0x00000001#32)] [] []) 0x0020B1B3#32 (fun t => (t.readInt 3#5, t.pc)) =
    some (0x00000000#32, 0x00001004#32) := by decide +kernel
theorem test_xor : after (machine [(1#5, 0xFF00FF00#32), (2#5, 0x0F0F0F0F#32)] [] []) 0x0020C1B3#32 (fun t => (t.readInt 3#5, t.pc)) =
    some (0xF00FF00F#32, 0x00001004#32) := by decide +kernel
theorem test_srl_fills_with_zero : after (machine [(1#5, 0x80000000#32), (2#5, 0x00000004#32)] [] []) 0x0020D1B3#32 (fun t => (t.readInt 3#5, t.pc)) =
    some (0x08000000#32, 0x00001004#32) := by decide +kernel
theorem test_sra_fills_with_sign : after (machine [(1#5, 0x80000000#32), (2#5, 0x00000004#32)] [] []) 0x4020D1B3#32 (fun t => (t.readInt 3#5, t.pc)) =
    some (0xF8000000#32, 0x00001004#32) := by decide +kernel
theorem test_or : after (machine [(1#5, 0xFF00FF00#32), (2#5, 0x0F0F0F0F#32)] [] []) 0x0020E1B3#32 (fun t => (t.readInt 3#5, t.pc)) =
    some (0xFF0FFF0F#32, 0x00001004#32) := by decide +kernel
theorem test_and : after (machine [(1#5, 0xFF00FF00#32), (2#5, 0x0F0F0F0F#32)] [] []) 0x0020F1B3#32 (fun t => (t.readInt 3#5, t.pc)) =
    some (0x0F000F00#32, 0x00001004#32) := by decide +kernel
theorem test_sll_by_32_copies : after (machine [(1#5, 0x12345678#32), (2#5, 0x00000020#32)] [] []) 0x002091B3#32 (fun t => (t.readInt 3#5, t.pc)) =
    some (0x12345678#32, 0x00001004#32) := by decide +kernel
theorem test_slti_is_signed : after (machine [(1#5, 0x80000000#32)] [] []) 0xFFF0A193#32 (fun t => (t.readInt 3#5, t.pc)) =
    some (0x00000001#32, 0x00001004#32) := by decide +kernel
theorem test_sltiu_extends_then_compares_unsigned : after (machine [(1#5, 0x00000005#32)] [] []) 0xFFF0B193#32 (fun t => (t.readInt 3#5, t.pc)) =
    some (0x00000001#32, 0x00001004#32) := by decide +kernel
theorem test_xori_inverts : after (machine [(1#5, 0x12345678#32)] [] []) 0xFFF0C193#32 (fun t => (t.readInt 3#5, t.pc)) =
    some (0xEDCBA987#32, 0x00001004#32) := by decide +kernel
theorem test_ori : after (machine [(1#5, 0x12345608#32)] [] []) 0x0F00E193#32 (fun t => (t.readInt 3#5, t.pc)) =
    some (0x123456F8#32, 0x00001004#32) := by decide +kernel
theorem test_andi_negative_keeps_high_bits : after (machine [(1#5, 0x12345678#32)] [] []) 0xF000F193#32 (fun t => (t.readInt 3#5, t.pc)) =
    some (0x12345600#32, 0x00001004#32) := by decide +kernel
theorem test_slli : after (machine [(1#5, 0x12345678#32)] [] []) 0x00409193#32 (fun t => (t.readInt 3#5, t.pc)) =
    some (0x23456780#32, 0x00001004#32) := by decide +kernel
theorem test_srli : after (machine [(1#5, 0x87654321#32)] [] []) 0x0040D193#32 (fun t => (t.readInt 3#5, t.pc)) =
    some (0x08765432#32, 0x00001004#32) := by decide +kernel
theorem test_srai : after (machine [(1#5, 0x87654321#32)] [] []) 0x4040D193#32 (fun t => (t.readInt 3#5, t.pc)) =
    some (0xF8765432#32, 0x00001004#32) := by decide +kernel
theorem test_mul_low_half : after (machine [(1#5, 0xFFFFFFF9#32), (2#5, 0x00000003#32)] [] []) 0x022081B3#32 (fun t => (t.readInt 3#5, t.pc)) =
    some (0xFFFFFFEB#32, 0x00001004#32) := by decide +kernel
theorem test_mulh_signed : after (machine [(1#5, 0xFFFFFFF9#32), (2#5, 0x00000003#32)] [] []) 0x022091B3#32 (fun t => (t.readInt 3#5, t.pc)) =
    some (0xFFFFFFFF#32, 0x00001004#32) := by decide +kernel
theorem test_mulhsu_signed_by_unsigned : after (machine [(1#5, 0xFFFFFFF9#32), (2#5, 0xFFFFFFFD#32)] [] []) 0x0220A1B3#32 (fun t => (t.readInt 3#5, t.pc)) =
    some (0xFFFFFFF9#32, 0x00001004#32) := by decide +kernel
theorem test_mulhsu_operands_do_not_commute : after (machine [(1#5, 0xFFFFFFFD#32), (2#5, 0xFFFFFFF9#32)] [] []) 0x0220A1B3#32 (fun t => (t.readInt 3#5, t.pc)) =
    some (0xFFFFFFFD#32, 0x00001004#32) := by decide +kernel
theorem test_mulhu_unsigned : after (machine [(1#5, 0xFFFFFFF9#32), (2#5, 0x00000003#32)] [] []) 0x0220B1B3#32 (fun t => (t.readInt 3#5, t.pc)) =
    some (0x00000002#32, 0x00001004#32) := by decide +kernel
theorem test_div_rounds_toward_zero : after (machine [(1#5, 0xFFFFFFF9#32), (2#5, 0x00000003#32)] [] []) 0x0220C1B3#32 (fun t => (t.readInt 3#5, t.pc)) =
    some (0xFFFFFFFE#32, 0x00001004#32) := by decide +kernel
theorem test_div_overflow : after (machine [(1#5, 0x80000000#32), (2#5, 0xFFFFFFFF#32)] [] []) 0x0220C1B3#32 (fun t => (t.readInt 3#5, t.pc)) =
    some (0x80000000#32, 0x00001004#32) := by decide +kernel
theorem test_divu : after (machine [(1#5, 0xFFFFFFF9#32), (2#5, 0x00000003#32)] [] []) 0x0220D1B3#32 (fun t => (t.readInt 3#5, t.pc)) =
    some (0x55555553#32, 0x00001004#32) := by decide +kernel
theorem test_divu_by_zero : after (machine [(1#5, 0x00000005#32), (2#5, 0x00000000#32)] [] []) 0x0220D1B3#32 (fun t => (t.readInt 3#5, t.pc)) =
    some (0xFFFFFFFF#32, 0x00001004#32) := by decide +kernel
theorem test_rem_has_dividend_sign : after (machine [(1#5, 0xFFFFFFF9#32), (2#5, 0x00000003#32)] [] []) 0x0220E1B3#32 (fun t => (t.readInt 3#5, t.pc)) =
    some (0xFFFFFFFF#32, 0x00001004#32) := by decide +kernel
theorem test_rem_overflow : after (machine [(1#5, 0x80000000#32), (2#5, 0xFFFFFFFF#32)] [] []) 0x0220E1B3#32 (fun t => (t.readInt 3#5, t.pc)) =
    some (0x00000000#32, 0x00001004#32) := by decide +kernel
theorem test_remu : after (machine [(1#5, 0x00000007#32), (2#5, 0xFFFFFFFD#32)] [] []) 0x0220F1B3#32 (fun t => (t.readInt 3#5, t.pc)) =
    some (0x00000007#32, 0x00001004#32) := by decide +kernel
theorem test_remu_by_zero : after (machine [(1#5, 0x00000005#32), (2#5, 0x00000000#32)] [] []) 0x0220F1B3#32 (fun t => (t.readInt 3#5, t.pc)) =
    some (0x00000005#32, 0x00001004#32) := by decide +kernel
theorem test_addi_sign_extends : after (machine [(5#5, 10#32)] [] []) 0xFFD28313#32 (fun t => (t.readInt 6#5, t.pc)) =
    some (7#32, 0x00001004#32) := by decide +kernel
theorem test_add_source_is_destination : after (machine [(1#5, 0x80000001#32)] [] []) 0x001080B3#32 (fun t => t.readInt 1#5) =
    some 2#32 := by decide +kernel
theorem test_write_of_x0_is_discarded : after (machine [(1#5, 5#32)] [] []) 0x00508013#32 (fun t => (t.readInt 0#5, t.pc)) =
    some (0#32, 0x00001004#32) := by decide +kernel

/-- The word 0xAABBCCDD at 0x00003000 and 0x11223344 at 0x00003004, little-endian. -/
def table : List (Word × Byte) :=
  [(0x3000#32, 0xDD#8), (0x3001#32, 0xCC#8), (0x3002#32, 0xBB#8), (0x3003#32, 0xAA#8),
   (0x3004#32, 0x44#8), (0x3005#32, 0x33#8), (0x3006#32, 0x22#8), (0x3007#32, 0x11#8)]

theorem test_lb_sign_extends : after (machine [(1#5, 0x00003000#32)] [] table) 0x00308183#32 (fun t => (t.readInt 3#5, t.pc)) =
    some (0xFFFFFFAA#32, 0x00001004#32) := by decide +kernel
theorem test_lh_sign_extends : after (machine [(1#5, 0x00003000#32)] [] table) 0x00209183#32 (fun t => (t.readInt 3#5, t.pc)) =
    some (0xFFFFAABB#32, 0x00001004#32) := by decide +kernel
theorem test_lw_negative_displacement : after (machine [(1#5, 0x00003004#32)] [] table) 0xFFC0A183#32 (fun t => (t.readInt 3#5, t.pc)) =
    some (0xAABBCCDD#32, 0x00001004#32) := by decide +kernel
theorem test_lw_misaligned : after (machine [(1#5, 0x00003000#32)] [] table) 0x0010A183#32 (fun t => (t.readInt 3#5, t.pc)) =
    some (0x44AABBCC#32, 0x00001004#32) := by decide +kernel
theorem test_lbu_zero_extends : after (machine [(1#5, 0x00003000#32)] [] table) 0x0000C183#32 (fun t => (t.readInt 3#5, t.pc)) =
    some (0x000000DD#32, 0x00001004#32) := by decide +kernel
theorem test_lhu_zero_extends : after (machine [(1#5, 0x00003000#32)] [] table) 0x0020D183#32 (fun t => (t.readInt 3#5, t.pc)) =
    some (0x0000AABB#32, 0x00001004#32) := by decide +kernel
theorem test_load_to_x0_is_discarded : after (machine [(1#5, 0x00003000#32)] [] table) 0x0000C003#32 (fun t => (t.readInt 0#5, t.pc)) =
    some (0x00000000#32, 0x00001004#32) := by decide +kernel
theorem test_lhu_base_is_destination : after (machine [(1#5, 0x3000#32)] [] table) 0x0020D083#32 (fun t => t.readInt 1#5) =
    some 0x0000AABB#32 := by decide +kernel
theorem test_sb_stores_the_low_byte : after (machine [(1#5, 0x00003000#32), (2#5, 0x12345678#32)] [] table) 0x002080A3#32 (fun t => (t.loadWord 0x00003000#32, t.pc)) =
    some (0xAABB78DD#32, 0x00001004#32) := by decide +kernel
theorem test_sh_stores_the_low_half : after (machine [(1#5, 0x00003000#32), (2#5, 0x12345678#32)] [] table) 0x00209123#32 (fun t => (t.loadWord 0x00003000#32, t.pc)) =
    some (0x5678CCDD#32, 0x00001004#32) := by decide +kernel
theorem test_sw_split_immediate : after (machine [(1#5, 0x00003004#32), (2#5, 0x01020304#32)] [] table) 0xFE20AE23#32 (fun t => (t.loadWord 0x00003000#32, t.pc)) =
    some (0x01020304#32, 0x00001004#32) := by decide +kernel
theorem test_sw_is_little_endian : after (machine [(1#5, 0x3000#32), (2#5, 0xAABBCCDD#32)] [] []) 0x0020A023#32
    (fun t => [t.byteAt 0x3000#32, t.byteAt 0x3001#32, t.byteAt 0x3002#32, t.byteAt 0x3003#32, t.byteAt 0x3004#32]) =
    some [0xDD#8, 0xCC#8, 0xBB#8, 0xAA#8, 0x00#8] := by decide +kernel
theorem test_beq_taken : after (machine [(1#5, 0x00000005#32), (2#5, 0x00000005#32)] [] []) 0x00208463#32 (fun t => t.pc) = some 0x00001008#32 := by decide +kernel
theorem test_beq_not_taken : after (machine [(1#5, 0x00000005#32), (2#5, 0x00000006#32)] [] []) 0x00208463#32 (fun t => t.pc) = some 0x00001004#32 := by decide +kernel
theorem test_bne_backward : after (machine [(1#5, 0x00000005#32), (2#5, 0x00000006#32)] [] []) 0xFE209EE3#32 (fun t => t.pc) = some 0x00000FFC#32 := by decide +kernel
theorem test_bne_not_taken : after (machine [(1#5, 0x00000005#32), (2#5, 0x00000005#32)] [] []) 0xFE209EE3#32 (fun t => t.pc) = some 0x00001004#32 := by decide +kernel
theorem test_blt_is_signed : after (machine [(1#5, 0xFFFFFFFF#32), (2#5, 0x00000001#32)] [] []) 0x0020C863#32 (fun t => t.pc) = some 0x00001010#32 := by decide +kernel
theorem test_bge_is_signed : after (machine [(1#5, 0xFFFFFFFF#32), (2#5, 0x00000001#32)] [] []) 0x0020D863#32 (fun t => t.pc) = some 0x00001004#32 := by decide +kernel
theorem test_bge_equal_taken : after (machine [(1#5, 0x00000007#32), (2#5, 0x00000007#32)] [] []) 0x0020D863#32 (fun t => t.pc) = some 0x00001010#32 := by decide +kernel
theorem test_bltu_is_unsigned : after (machine [(1#5, 0xFFFFFFFF#32), (2#5, 0x00000001#32)] [] []) 0x0020E863#32 (fun t => t.pc) = some 0x00001004#32 := by decide +kernel
theorem test_bltu_taken : after (machine [(1#5, 0x00000001#32), (2#5, 0xFFFFFFFF#32)] [] []) 0x0020E863#32 (fun t => t.pc) = some 0x00001010#32 := by decide +kernel
theorem test_bgeu_most_negative_offset_wraps : after (machine [(1#5, 0xFFFFFFFF#32), (2#5, 0x00000001#32)] [] []) 0x8020F063#32 (fun t => t.pc) = some 0x00000000#32 := by decide +kernel
theorem test_jal_links : after (machine [] [] []) 0x010000EF#32 (fun t => (t.readInt 1#5, t.pc)) =
    some (0x00001004#32, 0x00001010#32) := by decide +kernel
theorem test_jal_bit_11_is_bit_20 : after (machine [] [] []) 0x001000EF#32 (fun t => (t.readInt 1#5, t.pc)) =
    some (0x00001004#32, 0x00001800#32) := by decide +kernel
theorem test_jalr_clears_bit_0 : after (machine [(2#5, 0x00002000#32)] [] []) 0x005100E7#32 (fun t => (t.readInt 1#5, t.pc)) =
    some (0x00001004#32, 0x00002004#32) := by decide +kernel
theorem test_jalr_uses_the_old_source : after (machine [(1#5, 0x00002003#32)] [] []) 0x000080E7#32 (fun t => (t.readInt 1#5, t.pc)) =
    some (0x00001004#32, 0x00002002#32) := by decide +kernel
theorem test_lui : after (machine [] [] []) 0x000100B7#32 (fun t => (t.readInt 1#5, t.pc)) =
    some (0x00010000#32, 0x00001004#32) := by decide +kernel
theorem test_auipc_adds_its_own_address : after (machine [] [] []) 0x00010117#32 (fun t => (t.readInt 2#5, t.pc)) =
    some (0x00011000#32, 0x00001004#32) := by decide +kernel
theorem test_auipc_of_all_ones_subtracts_4096 : after (machine [] [] []) 0xFFFFF117#32 (fun t => (t.readInt 2#5, t.pc)) =
    some (0x00000000#32, 0x00001004#32) := by decide +kernel
theorem test_ecall : after (machine [(17#5, 93#32)] [] []) 0x00000073#32 (fun t => (t.outcome, t.pc, t.readInt 17#5)) =
    some (.environmentCall 0x1000#32, 0x00001000#32, 93#32) := by decide +kernel
theorem test_ebreak : after (machine [(17#5, 93#32)] [] []) 0x00100073#32 (fun t => (t.outcome, t.pc, t.readInt 17#5)) =
    some (.breakpoint 0x1000#32, 0x00001000#32, 93#32) := by decide +kernel
theorem test_fence_only_advances : after (machine [(17#5, 93#32)] [] []) 0x0FF0000F#32 (fun t => (t.outcome, t.pc, t.readInt 17#5)) =
    some (.retired, 0x00001004#32, 93#32) := by decide +kernel
theorem test_fence_ignores_its_fields : after (machine [(17#5, 93#32)] [] []) 0xFFF78F8F#32 (fun t => (t.outcome, t.pc, t.readInt 17#5)) =
    some (.retired, 0x00001004#32, 93#32) := by decide +kernel
theorem test_fence_i_only_advances : after (machine [(17#5, 93#32)] [] []) 0x0000100F#32 (fun t => (t.outcome, t.pc, t.readInt 17#5)) =
    some (.retired, 0x00001004#32, 93#32) := by decide +kernel
theorem test_invalid_word : after (machine [(17#5, 93#32)] [] []) 0x30200073#32 (fun t => (t.outcome, t.pc, t.readInt 17#5)) =
    some (.invalidInstruction 0x1000#32 0x30200073#32, 0x00001000#32, 93#32) := by decide +kernel
theorem test_fmadd_s : after (machine [] [(1#5, 0x40000000#32), (2#5, 0x40400000#32), (3#5, 0x3F800000#32)] []) 0x18208043#32
    (fun t => (t.readFloat 0#5, t.pc)) = some (0x40E00000#32, 0x00001004#32) := by decide +kernel
theorem test_fmadd_s_rounds_once : after (machine [] [(1#5, 0x3F800800#32), (2#5, 0x3F800800#32), (3#5, 0xBF801000#32)] []) 0x1820F043#32
    (fun t => (t.readFloat 0#5, t.pc)) = some (0x33800000#32, 0x00001004#32) := by decide +kernel
theorem test_fmsub_s : after (machine [] [(1#5, 0x40000000#32), (2#5, 0x40400000#32), (3#5, 0x3F800000#32)] []) 0x18208047#32
    (fun t => (t.readFloat 0#5, t.pc)) = some (0x40A00000#32, 0x00001004#32) := by decide +kernel
theorem test_fnmsub_s : after (machine [] [(1#5, 0x40000000#32), (2#5, 0x40400000#32), (3#5, 0x3F800000#32)] []) 0x1820804B#32
    (fun t => (t.readFloat 0#5, t.pc)) = some (0xC0A00000#32, 0x00001004#32) := by decide +kernel
theorem test_fnmadd_s : after (machine [] [(1#5, 0x40000000#32), (2#5, 0x40400000#32), (3#5, 0x3F800000#32)] []) 0x1820804F#32
    (fun t => (t.readFloat 0#5, t.pc)) = some (0xC0E00000#32, 0x00001004#32) := by decide +kernel
theorem test_fnmadd_s_exact_zero_is_plus_zero : after (machine [] [(1#5, 0x3F800000#32), (2#5, 0x3F800000#32), (3#5, 0xBF800000#32)] []) 0x1820804F#32
    (fun t => (t.readFloat 0#5, t.pc)) = some (0x00000000#32, 0x00001004#32) := by decide +kernel

/-! ### Rounding and special cases, from the rules' own examples and landmarks (48_fp_fma.md rules R210, R214, R215, R217) -/

theorem test_fma_overflow_and_underflow :
    fma32 0x7F7FFFFF#32 0x40000000#32 0x00000000#32 = 0x7F800000#32 ∧
    fma32 0x00000001#32 0x3F000000#32 0x00000000#32 = 0x00000000#32 ∧
    fma32 0x80000001#32 0x3F000000#32 0x00000000#32 = 0x80000000#32 ∧
    fma32 0x00800000#32 0x3F000000#32 0x00000000#32 = 0x00400000#32 := by decide +kernel
theorem test_fma_ties_to_even :
    fma32 0x3F800000#32 0x33800000#32 0x3F800000#32 = 0x3F800000#32 ∧
    fma32 0x3F800000#32 0x33800000#32 0x3F800001#32 = 0x3F800002#32 := by decide +kernel
theorem test_fma_zero_signs :
    fma32 0x80000000#32 0x3F800000#32 0x80000000#32 = 0x80000000#32 ∧
    fma32 0x00000000#32 0x3F800000#32 0x80000000#32 = 0x00000000#32 ∧
    fma32 (fneg 0x00000000#32) 0x3F800000#32 (fneg 0x00000000#32) = 0x80000000#32 := by decide +kernel

/-! ### The end of a run, reset and launch -/

theorem test_ended_run_does_not_step :
    step { State.reset with outcome := .breakpoint 0x1000#32 } = .fault (.runEnded (.breakpoint 0x1000#32)) := by rfl
theorem test_reset_first_step_is_an_invalid_word :
    stepsTo State.reset (fun t => t.outcome == .invalidInstruction 0#32 0#32 && t.pc == 0#32) = true := by decide +kernel
theorem test_reset_runs_a_placed_word :
    after State.reset 0x00A00293#32 (fun t => (t.readInt 5#5, t.pc)) = some (10#32, 4#32) := by decide +kernel
theorem test_launch_default_is_reset : State.launch Launch.default = State.reset := by decide +kernel
theorem test_launch_last_byte_wins :
    (State.launch { Launch.default with memInit := [(8#32, 0x11#8), (4#32, 0x22#8), (8#32, 0x33#8), (4#32, 0x00#8)] }).mem =
      [(8, 0x33#8)] := by decide +kernel
theorem test_memory_write_keeps_the_canonical_form :
    Memory.write [(3, 1#8), (9, 2#8)] 5 7#8 = [(3, 1#8), (5, 7#8), (9, 2#8)] ∧
    Memory.write [(3, 1#8), (9, 2#8)] 3 0#8 = [(9, 2#8)] ∧ Memory.wf [(9, 2#8), (3, 1#8)] = false ∧
    Memory.wf [(3, 0#8)] = false := by decide


/-! ### Witnesses: for each statement with hypotheses, a state and operands that meet all of them -/

/-- A running core at pc = 0x1000 with one word there and one after it, f1, f2, f3 = 2.0, 3.0, 1.0 and x1 = 0x1004. -/
def running (w next : Word) : State :=
  ((machine [(1#5, 0x1004#32), (2#5, 0x00100073#32)]
    [(1#5, 0x40000000#32), (2#5, 0x40400000#32), (3#5, 0x3F800000#32)] []).storeWord 0x1000#32 w).storeWord 0x1004#32 next

/-- DecodeOfEncodeIsTheInstruction: well-formed instructions with the immediates at the ends of their ranges. -/
theorem test_witness_DecodeOfEncodeIsTheInstruction :
    [Instr.addi 31#5 0#5 (-2048#32), .lw 0#5 31#5 2047#32, .sw 31#5 31#5 (-2048#32), .beq 0#5 31#5 (-4096#32),
      .bgeu 31#5 0#5 4094#32, .jal 31#5 (-1048576#32), .jal 0#5 1048574#32, .lui 31#5 0xFFFFF000#32, .srai 1#5 2#5 31#5,
      .fmaddS 31#5 30#5 29#5 28#5, .fence].all Instr.wellFormed = true := by decide
theorem test_witness_DecodedInstructionsAreWellFormed : decodeWord 0x8020F063#32 = .ok (.bgeu 1#5 2#5 (-4096#32)) := by
  decide +kernel
theorem test_witness_InvalidWordsAreExactlyTheListed :
    State.reset.outcome = .retired ∧ invalidEncoding State.reset.fetchWord = true ∧
    invalidEncoding 0x02009193#32 = true ∧ invalidEncoding 0x00009193#32 = false := by decide +kernel
theorem test_witness_StepRunsTheDecodedInstruction :
    let s := running 0x002081B3#32 0x00000013#32
    s.outcome = .retired ∧
    decode [s.byteAt s.pc, s.byteAt (s.pc + 1#32), s.byteAt (s.pc + 2#32), s.byteAt (s.pc + 3#32)] =
      .ok (.add 3#5 1#5 2#5, []) := by decide +kernel
theorem test_witness_PlacedInstructionIsTheOneRun :
    (machine [] [] table).mem.wf = true ∧ (Instr.jal 1#5 (-1048576#32)).wellFormed = true := by decide +kernel
theorem test_witness_EveryRunningStepEndsWithItsOutcome : (running 0x00000073#32 0#32).outcome = .retired := by decide +kernel
theorem test_witness_NonRetiringStepChangesNothing :
    ∃ t, step (running 0x00000073#32 0#32) = .next t ∧ (t.outcome != .retired) = true :=
  exists_of_stepsTo (by decide +kernel)
theorem test_witness_EveryOtherInstructionRetires : Instr.remu 1#5 2#5 0#5 ≠ .ecall ∧ Instr.remu 1#5 2#5 0#5 ≠ .ebreak := by
  decide
/-- A taken branch, jal, jalr and an ordinary instruction, each retiring. -/
theorem test_witness_RetiringStepLeavesThePc :
    [0x00208463#32, 0x010000EF#32, 0x005100E7#32, 0x00000013#32].map (fun w => (opcodeOf w, stepsTo (running w 0#32)
      fun t => t.outcome == .retired)) =
      [(0b1100011#7, true), (0b1101111#7, true), (0b1100111#7, true), (0b0010011#7, true)] := by decide +kernel
theorem test_witness_RunEndsAtTheFirstNonRetiringOutcome :
    ({ State.reset with outcome := .environmentCall 0#32 } : State).outcome ≠ .retired := by decide
/-- An ecall with an addi after it: the step does not retire, and the resumed core stands at the addi. -/
theorem test_witness_ResumeContinuesAfterTheCall :
    ∃ t, step (running 0x00000073#32 0x00A00293#32) = .next t ∧
      (t.outcome != .retired && decide (decodeWord t.resumeAfter.fetchWord = .ok (.addi 5#5 0#5 10#32))) = true :=
  exists_of_stepsTo (by decide +kernel)
theorem test_witness_StepKeepsTheInvariant :
    (running 0xFE209EE3#32 0#32).Inv ∧ ∃ t, step (running 0xFE209EE3#32 0#32) = .next t ∧ (t.outcome == .retired) = true :=
  ⟨⟨by decide +kernel, by unfold State.pcEven; decide +kernel, by
    have h : (running 0xFE209EE3#32 0#32).outcome = .retired := by decide +kernel
    unfold State.outcomeFits; rw [h]; exact True.intro⟩, exists_of_stepsTo (by decide +kernel)⟩
theorem test_witness_LaunchLeavesWhatTheSessionSupplied :
    ({ Launch.default with resetPc := 0xFFFFFFFE#32 } : Launch).resetPc.toNat % 2 = 0 := by decide
theorem test_witness_SessionWritesKeepMemoryCanonical : (machine [] [] table).mem.wf = true := by decide +kernel
theorem test_witness_CanonicalMemoriesReadingAlikeAreEqual :
    Memory.wf [(0, 1#8), (4294967295, 2#8)] = true ∧
    ∀ a : Word, Memory.read [(0, 1#8), (4294967295, 2#8)] a.toNat = Memory.read [(0, 1#8), (4294967295, 2#8)] a.toNat :=
  ⟨by decide, fun _ => rfl⟩
/-- RowReads, in every family's statement: each row's own word matches it. -/
theorem test_witness_RowReads : decodeTable.all (fun r => r.bits &&& r.mask == r.bits) = true := by decide +kernel
theorem test_witness_RegisterImmediateInstructionsWriteTheirResult :
    opcodeOf 0x02009193#32 = 0b0010011#7 ∧ funct3Of 0x02009193#32 = 0b001#3 ∧ funct7Of 0x02009193#32 ≠ 0#7 := by decide
theorem test_witness_QuotientAndRemainderObeyTheDivisionLaw :
    (0x00000001#32 : Word) ≠ 0#32 ∧ ¬ ((0x80000000#32 : Word) = 0x80000000#32 ∧ (0x00000001#32 : Word) = 0xFFFFFFFF#32) ∧
    (remainderSigned 0xFFFFFFF9#32 3#32).toInt ≠ 0 := by decide
theorem test_witness_StoresWriteTheLowBytes : (machine [(1#5, 0xFFFFFFFE#32)] [] table).mem.wf = true := by decide +kernel
/-- Each of the three stores answers a next state. -/
theorem test_witness_StoresLeaveAllOtherBytes (s : State) (rs1 rs2 : RegIdx) (imm : Word) :
    (∃ t, exec (.sb rs1 rs2 imm) s = .next t) ∧ (∃ t, exec (.sh rs1 rs2 imm) s = .next t) ∧
    ∃ t, exec (.sw rs1 rs2 imm) s = .next t := ⟨⟨_, rfl⟩, ⟨_, rfl⟩, ⟨_, rfl⟩⟩
theorem test_witness_WordStoreIsReadBackAtEveryWidth : State.reset.mem.wf = true := by decide
theorem test_witness_StoredWordIsFetchedNext :
    let s := running 0x0020A023#32 0#32
    s.mem.wf = true ∧ s.effectiveAddress 1#5 0#32 = s.pc + 4#32 ∧ decodeWord (s.readInt 2#5) = .ok .ebreak := by
  decide +kernel
theorem test_witness_JumpsLinkAndRedirect : opcodeOf 0x000010E7#32 = 0b1100111#7 ∧ funct3Of 0x000010E7#32 ≠ 0#3 := by decide
/-- The threshold and the value just below it, and a tie: 1 + 2^-24, as near to 1.0 as to 1.0 + 2^-23. -/
theorem test_witness_RoundingIsToNearestTiesToEven :
    (2 ^ 128 - 2 ^ 103) * 2 ^ 298 ≤ ((2 ^ 128 - 2 ^ 103) * 2 ^ 298 : Int).natAbs ∧
    ((2 ^ 128 - 2 ^ 103) * 2 ^ 298 - 1 : Int).natAbs < (2 ^ 128 - 2 ^ 103) * 2 ^ 298 ∧
    isFinite 0x3F800001#32 = true ∧
    (valueUnits (round32 (2 ^ 298 + 2 ^ 274)) * 2 ^ 149 - (2 ^ 298 + 2 ^ 274)).natAbs =
      (valueUnits 0x3F800001#32 * 2 ^ 149 - (2 ^ 298 + 2 ^ 274)).natAbs ∧
    valueUnits 0x3F800001#32 ≠ valueUnits (round32 (2 ^ 298 + 2 ^ 274)) := by decide +kernel
theorem test_witness_FiniteFusedResultIsRoundedOnce :
    isFinite 0x40000000#32 = true ∧ isFinite 0x40400000#32 = true ∧ isFinite 0x3F800000#32 = true ∧
    isFinite 0x40E00000#32 = true ∧
    valueUnits 0x40E00000#32 * 2 ^ 149 =
      valueUnits 0x40000000#32 * valueUnits 0x40400000#32 + valueUnits 0x3F800000#32 * 2 ^ 149 ∧
    valueUnits 0x40E00000#32 * 2 ^ 149 ≠ 0 := by decide +kernel
/-- inf * 0, inf - inf, an infinite product, an infinite addend. -/
theorem test_witness_InfiniteFusedResults :
    isNaN 0x7F800000#32 = false ∧ isNaN 0xFF800000#32 = false ∧ isNaN 0x3F800000#32 = false ∧ isNaN 0x00000000#32 = false ∧
    isInfinity 0x7F800000#32 = true ∧ isInfinity 0xFF800000#32 = true ∧ isZero 0x00000000#32 = true ∧
    isZero 0x3F800000#32 = false ∧ isFinite 0x3F800000#32 = true ∧
    signOf 0xFF800000#32 ≠ (signOf 0x7F800000#32 ^^ signOf 0x3F800000#32) := by decide
/-- A NaN operand and inf * 0: a NaN result exists, whatever the pattern of `FMA_NAN` is. -/
theorem test_witness_NaNResultsAreOneQuietNaN :
    isNaN 0x7F800001#32 = true ∧ fma32 0x7F800001#32 0x3F800000#32 0x00000000#32 = fmaNaN ∧
    fma32 0x7F800000#32 0x00000000#32 0x3F800000#32 = fmaNaN ∧ isNaN fmaNaN = true :=
  ⟨by decide, by unfold fma32; rw [if_pos (by decide)],
    by unfold fma32; rw [if_neg (by decide), if_pos (by decide), if_pos (by decide)], fmaNaN_is_nan⟩
/-- A like-signed zero sum, an unlike-signed one, and an exact cancellation. -/
theorem test_witness_ZeroResultHasTheSignOfTheTable :
    (valueUnits 0x80000000#32 * valueUnits 0x3F800000#32 = 0 ∧ valueUnits 0x80000000#32 = 0 ∧
      (signOf 0x80000000#32 ^^ signOf 0x3F800000#32) = signOf 0x80000000#32) ∧
    (signOf 0x00000000#32 ^^ signOf 0x3F800000#32) ≠ signOf 0x80000000#32 ∧
    valueUnits 0x3F800000#32 * valueUnits 0x3F800000#32 ≠ 0 ∧
    valueUnits 0x3F800000#32 * valueUnits 0x3F800000#32 + valueUnits 0xBF800000#32 * 2 ^ 149 = 0 ∧
    [0x80000000#32, 0x00000000#32, 0x3F800000#32, 0xBF800000#32].all isFinite = true := by decide +kernel
theorem test_witness_NegatedFormsAgreeAwayFromExactZero :
    isNaN (fma32 0x40000000#32 0x40400000#32 0x3F800000#32) = false ∧
    valueUnits 0x40000000#32 * valueUnits 0x40400000#32 + valueUnits 0x3F800000#32 * 2 ^ 149 ≠ 0 := by decide +kernel
theorem test_witness_NegationIsExactForEveryClass : isFinite 0x7F7FFFFF#32 = true ∧ isFinite 0x80000001#32 = true := by decide
/-- Each class at the ends of its range. -/
theorem test_witness_PatternsHaveTheirClassAndValue :
    [0x80000000#32, 0x00000001#32, 0x007FFFFF#32, 0x00800000#32, 0x7F7FFFFF#32, 0x7F800000#32, 0x7F800001#32,
      0x7FC00000#32].map (fun v : Word => ((v.extractLsb' 23 8).toNat, (v.extractLsb' 0 23).toNat)) =
      [(0, 0), (0, 1), (0, 8388607), (1, 0), (254, 8388607), (255, 0), (255, 1), (255, 4194304)] := by decide
theorem test_witness_RegisterZeroIsHardWired :
    ∃ t, step (running 0x00508013#32 0#32) = .next t ∧ (t.outcome == .retired) = true := exists_of_stepsTo (by decide +kernel)
/-- A step of an integer instruction and one of a fused multiply-add. -/
theorem test_witness_OnlyFusedInstructionsTouchTheFloatBank :
    (stepsTo (running 0x002081B3#32 0#32) (fun _ => true) && !isFmaOpcode (opcodeOf (running 0x002081B3#32 0#32).fetchWord) &&
      stepsTo (running 0x18208043#32 0#32) (fun _ => true) &&
      isFmaOpcode (opcodeOf (running 0x18208043#32 0#32).fetchWord)) = true := by decide +kernel
theorem test_witness_FloatBankIsInvisibleToTheRest :
    ∃ t, step (running 0x18208043#32 0#32) = .next t ∧ (t.readFloat 0#5 == 0x40E00000#32) = true :=
  exists_of_stepsTo (by decide +kernel)
/-- A step under each opcode the statement speaks of, and one under another. -/
theorem test_witness_WritesFollowTheFormat :
    [0x0020A023#32, 0x00208463#32, 0x0000000F#32, 0x00000073#32, 0x002081B3#32].map
      (fun w => (opcodeOf (running w 0#32).fetchWord, stepsTo (running w 0#32) fun _ => true)) =
      [(0b0100011#7, true), (0b1100011#7, true), (0b0001111#7, true), (0b1110011#7, true), (0b0110011#7, true)] := by
  decide +kernel
theorem test_witness_AccessesWrapAtTheTopOfMemory :
    ({ machine [] [] table with pc := 0xFFFFFFFD#32 } : State).pc = 0xFFFFFFFD#32 ∧ (machine [] [] table).mem.wf = true := by
  decide +kernel


end Sys2Proof.Tests
end

section
/-! PROOFS about the register banks (10_state.md). -/

namespace Sys2Proof.Machine

/-- Settles O47: `State.readInt` and `State.writeInt` decide index 0 before they look at the bank, so the read holds of
every state, and of the state after a step among them (rule R22). -/
theorem registerZeroIsHardWired : Obligations.RegisterZeroIsHardWired :=
  ⟨State.readInt_zero, State.writeInt_zero, fun _ t _ => State.readInt_zero t⟩

end Sys2Proof.Machine
end

section
/-! PROOFS: what the decode table says of an instruction word (30_encoding.md), for the families' statements. -/

namespace Sys2Proof

/-- Each row of the table, by its number, reads every word that matches it (30_encoding.md rule R76). -/
theorem rowReads_of_getElem {k : Nat} {mnemonic : String} {bits mask : Word} {build : Word → Instr}
    (h : decodeTable[k]? = some ⟨mnemonic, bits, mask, build⟩) : Machine.RowReads bits mask build :=
  fun _ hm => decodeWord_of_matches (List.mem_of_getElem? h) hm

/-- A field that a row compares in full holds, in every word that matches the row, what the row's bits hold there. -/
theorem extractLsb'_of_matches {w m b : Word} (start len : Nat) (hm : w &&& m = b)
    (hfield : m.extractLsb' start len = BitVec.allOnes len) : w.extractLsb' start len = b.extractLsb' start len := by
  rw [← hm, BitVec.extractLsb'_and, hfield, BitVec.and_allOnes]

/-- Every row compares the whole opcode (rule R74). -/
theorem mask_opcode : ∀ r ∈ decodeTable, r.mask.extractLsb' 0 7 = BitVec.allOnes 7 := by decide

/-- A word that matches a row has the row's opcode. -/
theorem opcodeOf_of_matches {w : Word} {r : TableRow} (hr : r ∈ decodeTable) (hm : w &&& r.mask = r.bits) :
    opcodeOf w = opcodeOf r.bits :=
  extractLsb'_of_matches 0 7 hm (mask_opcode r hr)

/-- Opcode and funct3 are what the mask 0x0000707F compares (rule R74). -/
theorem and_mask_opcode_funct3 (w : Word) : w &&& 0x0000707F#32 = 0#17 ++ funct3Of w ++ 0#5 ++ opcodeOf w := by
  unfold funct3Of opcodeOf
  apply BitVec.eq_of_getLsbD_eq
  intro i hi
  simp only [BitVec.getLsbD_and, BitVec.getLsbD_append, BitVec.getLsbD_extractLsb']
  interval_cases i <;> simp

/-- The one row that is compatible with slli's opcode and funct3 is slli's own. -/
theorem row_of_slli_opcode_funct3 : ∀ r ∈ decodeTable,
    0x0000707F#32 &&& r.mask &&& (0x00001013#32 ^^^ r.bits) = 0#32 → r.mask = 0xFE00707F#32 ∧ r.bits = 0x00001013#32 := by
  decide

/-- No row reads a word with slli's opcode and funct3 but another funct7: each row but slli's disagrees in the opcode or
in funct3, and slli's row compares funct7 too (rules R77, R117). -/
theorem decodeWord_slli_of_funct7_ne {w : Word} (hop : opcodeOf w = 0b0010011#7) (hf3 : funct3Of w = 0b001#3)
    (hf7 : funct7Of w ≠ 0#7) : decodeWord w = .error (.noMatchingRow w) := by
  have hw : w &&& 0x0000707F#32 = 0x00001013#32 := by rw [and_mask_opcode_funct3, hop, hf3]; rfl
  cases hd : decodeWord w with
  | error e => rw [(no_match_of_decodeWord hd).1]
  | ok i =>
    obtain ⟨r, hr, hm, -⟩ := matches_of_decodeWord hd
    obtain ⟨hmask, hbits⟩ := row_of_slli_opcode_funct3 r hr (matches_agree hw hm)
    rw [hmask, hbits] at hm
    exact absurd (extractLsb'_of_matches 25 7 hm (by decide)) hf7

end Sys2Proof
end

section
/-! PROOFS about the integer ALU (40_integer_alu.md): the results as integers, and that the instructions complete. -/

namespace Sys2Proof.Machine

/-! ### The results as integers (rules R120 to R122) -/

theorem add_eq_ofInt (a b : Word) : a + b = BitVec.ofInt 32 (a.toInt + b.toInt) := by
  rw [BitVec.ofInt_add, BitVec.ofInt_toInt, BitVec.ofInt_toInt]

theorem sub_eq_ofInt (a b : Word) : a - b = BitVec.ofInt 32 (a.toInt - b.toInt) :=
  BitVec.eq_of_toInt_eq (by rw [BitVec.toInt_sub, BitVec.toInt_ofInt])

theorem shiftLeft_eq_ofNat (v : Word) (n : BitVec 5) : shiftLeft v n = BitVec.ofNat 32 (v.toNat * 2 ^ n.toNat) :=
  BitVec.eq_of_toNat_eq (by rw [shiftLeft, BitVec.toNat_shiftLeft, Nat.shiftLeft_eq, BitVec.toNat_ofNat])

theorem shiftRightLogical_eq_ofNat (v : Word) (n : BitVec 5) :
    shiftRightLogical v n = BitVec.ofNat 32 (v.toNat / 2 ^ n.toNat) := by
  rw [← Nat.shiftRight_eq_div_pow, ← BitVec.toNat_ushiftRight, BitVec.ofNat_toNat, BitVec.setWidth_eq, shiftRightLogical]

/-- The arithmetic shift is the division that rounds down (rule R108). -/
theorem shiftRightArithmetic_eq_ofInt (v : Word) (n : BitVec 5) :
    shiftRightArithmetic v n = BitVec.ofInt 32 (v.toInt / 2 ^ n.toNat) := by
  have h : v.toInt / 2 ^ n.toNat = (v.sshiftRight n.toNat).toInt := by
    rw [BitVec.toInt_sshiftRight, Int.shiftRight_eq_div_pow, Nat.cast_pow, Nat.cast_ofNat]
  rw [h, BitVec.ofInt_toInt, shiftRightArithmetic]

/-- Only the low five bits of x[rs2] count (rule R120). -/
theorem State.shiftAmount_toNat (s : State) (rs2 : RegIdx) : (s.shiftAmount rs2).toNat = (s.readInt rs2).toNat % 32 := by
  rw [State.shiftAmount, BitVec.extractLsb'_toNat, Nat.shiftRight_zero]

theorem flagWord_ltSigned (a b : Word) : flagWord (ltSigned a b) = if a.toInt < b.toInt then 1#32 else 0#32 := by
  simp [flagWord, ltSigned]

theorem flagWord_ltUnsigned (a b : Word) : flagWord (ltUnsigned a b) = if a.toNat < b.toNat then 1#32 else 0#32 := by
  simp [flagWord, ltUnsigned]

/-! ### Completion -/

/-- A write of x[rd] and an advance of the pc change x[rd] alone (rules R22, R100). -/
theorem State.onlyIntWritten_writeInt_advance (s : State) (rd : RegIdx) (v : Word) :
    s.OnlyIntWritten (s.writeInt rd v).advance rd v :=
  ⟨fun r => by rw [State.readInt_advance, State.readInt_writeInt],
    fun r => by rw [State.readFloat_advance, State.readFloat_writeInt],
    fun a => by rw [State.byteAt_advance, State.byteAt_writeInt]⟩

/-- An instruction whose meaning ends by `finishInt` completes at pc + 4; `hv` gives the written value another form. -/
theorem completesInt_of_finishInt {i : Instr} {s : State} {rd : RegIdx} {u v : Word} (h : exec i s = s.finishInt rd u)
    (hv : u = v) : CompletesInt i s rd v (s.pc + 4#32) := by
  subst hv
  exact ⟨_, h.trans (s.finishInt_next rd u), rfl, rfl, s.onlyIntWritten_writeInt_advance rd u⟩

/-! ### The two families -/

/-- Settles O21: each instruction's row reads its words, and its meaning is `finishInt` of the rule's result, which the
lemmas above give as an integer (rules R101 to R110). -/
theorem registerRegisterInstructionsWriteTheirResult : Obligations.RegisterRegisterInstructionsWriteTheirResult := by
  refine ⟨⟨?_, ?_, ?_, ?_, ?_, ?_, ?_, ?_, ?_, ?_⟩, fun s rd rs1 rs2 => ⟨?_, ?_, ?_, ?_, ?_, ?_, ?_, ?_, ?_, ?_⟩⟩
  · exact rowReads_of_getElem (k := 0) rfl
  · exact rowReads_of_getElem (k := 1) rfl
  · exact rowReads_of_getElem (k := 2) rfl
  · exact rowReads_of_getElem (k := 3) rfl
  · exact rowReads_of_getElem (k := 4) rfl
  · exact rowReads_of_getElem (k := 5) rfl
  · exact rowReads_of_getElem (k := 6) rfl
  · exact rowReads_of_getElem (k := 7) rfl
  · exact rowReads_of_getElem (k := 8) rfl
  · exact rowReads_of_getElem (k := 9) rfl
  · exact completesInt_of_finishInt rfl (add_eq_ofInt _ _)
  · exact completesInt_of_finishInt rfl (sub_eq_ofInt _ _)
  · exact completesInt_of_finishInt rfl (by rw [shiftLeft_eq_ofNat, State.shiftAmount_toNat])
  · exact completesInt_of_finishInt rfl (flagWord_ltSigned _ _)
  · exact completesInt_of_finishInt rfl (flagWord_ltUnsigned _ _)
  · exact completesInt_of_finishInt rfl rfl
  · exact completesInt_of_finishInt rfl (by rw [shiftRightLogical_eq_ofNat, State.shiftAmount_toNat])
  · exact completesInt_of_finishInt rfl (by rw [shiftRightArithmetic_eq_ofInt, State.shiftAmount_toNat])
  · exact completesInt_of_finishInt rfl rfl
  · exact completesInt_of_finishInt rfl rfl

/-- Settles O22: as for the register forms, with the immediate or shamt as second operand; the invalid words are those
that `decodeWord_slli_of_funct7_ne` finds no row for (rules R111 to R119). -/
theorem registerImmediateInstructionsWriteTheirResult : Obligations.RegisterImmediateInstructionsWriteTheirResult := by
  refine ⟨⟨?_, ?_, ?_, ?_, ?_, ?_, ?_, ?_, ?_, fun w => decodeWord_slli_of_funct7_ne⟩,
    fun s rd rs1 imm shamt => ⟨?_, ?_, ?_, ?_, ?_, ?_, ?_, ?_, ?_⟩⟩
  · exact rowReads_of_getElem (k := 10) rfl
  · exact rowReads_of_getElem (k := 11) rfl
  · exact rowReads_of_getElem (k := 12) rfl
  · exact rowReads_of_getElem (k := 13) rfl
  · exact rowReads_of_getElem (k := 14) rfl
  · exact rowReads_of_getElem (k := 15) rfl
  · exact rowReads_of_getElem (k := 16) rfl
  · exact rowReads_of_getElem (k := 17) rfl
  · exact rowReads_of_getElem (k := 18) rfl
  · exact completesInt_of_finishInt rfl (add_eq_ofInt _ _)
  · exact completesInt_of_finishInt rfl (flagWord_ltSigned _ _)
  · exact completesInt_of_finishInt rfl (flagWord_ltUnsigned _ _)
  · exact completesInt_of_finishInt rfl rfl
  · exact completesInt_of_finishInt rfl rfl
  · exact completesInt_of_finishInt rfl rfl
  · exact completesInt_of_finishInt rfl (shiftLeft_eq_ofNat _ _)
  · exact completesInt_of_finishInt rfl (shiftRightLogical_eq_ofNat _ _)
  · exact completesInt_of_finishInt rfl (shiftRightArithmetic_eq_ofInt _ _)

end Sys2Proof.Machine
end

section
/-! PROOFS: what an instruction may write, by its form, and what the opcode says of that form (10_state.md section 2). -/

namespace Sys2Proof

/-- The integer register an instruction's format names as its destination; none for stores, branches, system instructions
and the fused multiply-adds, whose rd is of the other bank (30_encoding.md rules R62 to R68). -/
def Instr.intDest : Instr → Option RegIdx
  | .add rd _ _ | .sub rd _ _ | .sll rd _ _ | .slt rd _ _ | .sltu rd _ _ | .xor rd _ _ | .srl rd _ _ | .sra rd _ _
  | .or rd _ _ | .and rd _ _ => some rd
  | .addi rd _ _ | .slti rd _ _ | .sltiu rd _ _ | .xori rd _ _ | .ori rd _ _ | .andi rd _ _ => some rd
  | .slli rd _ _ | .srli rd _ _ | .srai rd _ _ => some rd
  | .mul rd _ _ | .mulh rd _ _ | .mulhsu rd _ _ | .mulhu rd _ _ | .div rd _ _ | .divu rd _ _ | .rem rd _ _
  | .remu rd _ _ => some rd
  | .lb rd _ _ | .lh rd _ _ | .lw rd _ _ | .lbu rd _ _ | .lhu rd _ _ => some rd
  | .jal rd _ | .jalr rd _ _ | .lui rd _ | .auipc rd _ => some rd
  | .sb _ _ _ | .sh _ _ _ | .sw _ _ _ => none
  | .beq _ _ _ | .bne _ _ _ | .blt _ _ _ | .bge _ _ _ | .bltu _ _ _ | .bgeu _ _ _ => none
  | .ecall | .ebreak | .fence | .fenceI => none
  | .fmaddS _ _ _ _ | .fmsubS _ _ _ _ | .fnmsubS _ _ _ _ | .fnmaddS _ _ _ _ => none

/-- The instruction is one of the three stores. -/
def Instr.isStore : Instr → Bool
  | .sb _ _ _ | .sh _ _ _ | .sw _ _ _ => true
  | _ => false

/-- The opcode's instructions have an integer destination: all but STORE, BRANCH, MISC-MEM, SYSTEM and the four of the fused
multiply-adds (rules R73, R75). -/
def opcodeHasIntDest (op : BitVec 7) : Bool :=
  !(op == 0b0100011#7 || op == 0b1100011#7 || op == 0b0001111#7 || op == 0b1110011#7 || Machine.isFmaOpcode op)

/-- The stores are the rows with the STORE opcode. -/
theorem isStore_build (w : Word) : ∀ r ∈ decodeTable, (r.build w).isStore = (opcodeOf r.bits == 0b0100011#7) := by
  simp [decodeTable, rowsRegister, rowsImmediate, rowsMulDiv, rowsMemory, rowsControl, rowsSystem, rowsFma, opcodeOf,
    Instr.isStore]

/-- A row's opcode says whether its instructions have an integer destination, which is then w[11:7]. -/
theorem intDest_build (w : Word) : ∀ r ∈ decodeTable,
    (r.build w).intDest = if opcodeHasIntDest (opcodeOf r.bits) then some (rdOf w) else none := by
  simp [decodeTable, rowsRegister, rowsImmediate, rowsMulDiv, rowsMemory, rowsControl, rowsSystem, rowsFma, opcodeOf,
    Instr.intDest, opcodeHasIntDest, Machine.isFmaOpcode]

theorem isStore_of_decodeWord {w : Word} {i : Instr} (h : decodeWord w = .ok i) :
    i.isStore = (opcodeOf w == 0b0100011#7) := by
  obtain ⟨r, hr, hm, rfl⟩ := matches_of_decodeWord h
  rw [isStore_build w r hr, opcodeOf_of_matches hr hm]

theorem intDest_of_decodeWord {w : Word} {i : Instr} (h : decodeWord w = .ok i) :
    i.intDest = if opcodeHasIntDest (opcodeOf w) then some (rdOf w) else none := by
  obtain ⟨r, hr, hm, rfl⟩ := matches_of_decodeWord h
  rw [intDest_build w r hr, opcodeOf_of_matches hr hm]

end Sys2Proof

namespace Sys2Proof.Machine

/-- An instruction with an integer destination writes that register and retires: each such meaning is, by definition, an
update of this form. -/
theorem exec_of_intDest {i : Instr} {rd : RegIdx} (h : i.intDest = some rd) (s : State) :
    ∃ v target, exec i s = .next ((s.writeInt rd v).retire target) := by
  cases i <;> cases h <;> exact ⟨_, _, rfl⟩

/-- An instruction without an integer destination leaves the integer bank: no such meaning updates it. -/
theorem exec_x_of_intDest_none {i : Instr} {s t : State} (h : i.intDest = none) (ht : exec i s = .next t) :
    t.x = s.x := by
  cases i <;> cases h <;> cases ht <;> rfl

/-- An instruction that is no store leaves memory: no such meaning updates it. -/
theorem exec_mem_of_not_isStore {i : Instr} {s t : State} (h : i.isStore = false) (ht : exec i s = .next t) :
    t.mem = s.mem := by
  cases i <;> cases h <;> cases ht <;> rfl

/-- An executed instruction changes no integer register but its destination. -/
theorem exec_readInt_of_ne_intDest {i : Instr} {s t : State} {r : RegIdx} (hr : i.intDest ≠ some r)
    (ht : exec i s = .next t) : t.readInt r = s.readInt r := by
  cases hd : i.intDest with
  | none => exact State.readInt_congr (exec_x_of_intDest_none hd ht) r
  | some rd =>
    obtain ⟨v, target, hx⟩ := exec_of_intDest hd s
    obtain rfl : (s.writeInt rd v).retire target = t := Host.Outcome.next.inj (hx.symm.trans ht)
    have hne : r ≠ rd := fun h => hr (h ▸ hd)
    rw [State.readInt_retire, State.readInt_writeInt, if_neg (fun h => hne h.1)]

/-- Settles O50: a step runs the instruction it decoded, whose form the opcode fixes, or ends with InvalidInstruction and
changes neither bank nor memory (10_state.md rule R23; 60_exceptions.md rule R304). -/
theorem writesFollowTheFormat : Obligations.WritesFollowTheFormat := by
  intro s t h
  obtain ⟨-, ⟨i, hd, ht⟩ | ⟨e, -, rfl⟩⟩ := step_cases h
  · have hdest := intDest_of_decodeWord hd
    refine ⟨fun hop => ?_, fun hop => ?_, fun r hr => ?_⟩
    · exact exec_mem_of_not_isStore (by simp [isStore_of_decodeWord hd, hop]) ht
    · have hno : opcodeHasIntDest (opcodeOf s.fetchWord) = false := by
        rcases hop with hop | hop | hop | hop <;> rw [hop] <;> rfl
      exact exec_x_of_intDest_none (by simp [hdest, hno]) ht
    · refine exec_readInt_of_ne_intDest ?_ ht
      rw [hdest]
      split
      · exact fun h => hr (Option.some.inj h).symm
      · exact nofun
  · exact ⟨fun _ => rfl, fun _ => rfl, fun r _ => State.readInt_raise s _ r⟩

end Sys2Proof.Machine
end

section
/-! PROOFS about multiply, divide and remainder (41_muldiv.md): the results as integers, and that the instructions
complete. -/

namespace Sys2Proof.Machine

/-! ### The halves of a product (rule R140) -/

/-- The low half is the exact product modulo 2^32: bits 31:0 of T do not see the reduction modulo 2^64. -/
theorem productLow_eq_ofInt (p : Int) : productLow p = BitVec.ofInt 32 p := by
  apply BitVec.eq_of_toNat_eq
  rw [productLow, BitVec.extractLsb'_toNat, BitVec.toNat_ofInt, BitVec.toNat_ofInt]
  omega

/-- The high half is the quotient by 2^32 rounded down, modulo 2^32, for a negative product too: T is p modulo 2^64. -/
theorem productHigh_eq_ofInt (p : Int) : productHigh p = BitVec.ofInt 32 (p / 2 ^ 32) := by
  apply BitVec.eq_of_toNat_eq
  rw [productHigh, BitVec.extractLsb'_toNat, BitVec.toNat_ofInt, BitVec.toNat_ofInt]
  omega

/-! ### Rounding toward zero, by signs and magnitudes (rule R139) -/

theorem tdiv_eq_sign_mul_natAbs_div (a b : Int) :
    a.tdiv b = Int.sign a * Int.sign b * (a.natAbs / b.natAbs : Nat) := by
  have hmag : (a.tdiv b).natAbs = a.natAbs / b.natAbs := Int.natAbs_tdiv a b
  rw [← Int.sign_mul_natAbs (a.tdiv b), Int.sign_tdiv, hmag]
  split
  case isTrue hlt => rw [Nat.div_eq_of_lt hlt, Nat.cast_zero, mul_zero, mul_zero]
  case isFalse => rfl

theorem tmod_eq_sign_mul_natAbs_mod (a b : Int) : a.tmod b = Int.sign a * (a.natAbs % b.natAbs : Nat) := by
  rw [← Int.sign_mul_natAbs (a.tmod b), Int.sign_tmod, Int.natAbs_tmod]
  split
  case isTrue hdvd =>
    rw [Nat.mod_eq_zero_of_dvd (Int.natAbs_dvd_natAbs.mpr hdvd), Nat.cast_zero, mul_zero, mul_zero]
  case isFalse => rfl

/-! ### The two families -/

/-- Settles O23: each instruction's row reads its words, and its meaning is `finishInt` of one half of its product,
which the lemmas above give as an integer (rules R131 to R134). -/
theorem multiplyInstructionsWriteTheirHalf : Obligations.MultiplyInstructionsWriteTheirHalf := by
  refine ⟨⟨?_, ?_, ?_, ?_⟩, fun s rd rs1 rs2 => ⟨?_, ?_, ?_, ?_⟩⟩
  · exact rowReads_of_getElem (k := 19) rfl
  · exact rowReads_of_getElem (k := 20) rfl
  · exact rowReads_of_getElem (k := 21) rfl
  · exact rowReads_of_getElem (k := 22) rfl
  · exact completesInt_of_finishInt rfl ((productLow_eq_ofInt _).trans (BitVec.ofInt_natCast _ _))
  · exact completesInt_of_finishInt rfl (productHigh_eq_ofInt _)
  · exact completesInt_of_finishInt rfl (productHigh_eq_ofInt _)
  · exact completesInt_of_finishInt rfl ((productHigh_eq_ofInt _).trans (BitVec.ofInt_natCast _ _))

/-- Settles O25: as for the products; the rows for a zero divisor and for -2^31 / -1 are the model's own, and elsewhere
the lemmas above give the truncated quotient and remainder by signs and magnitudes (rules R135 to R138). -/
theorem divideInstructionsWriteTheirResult : Obligations.DivideInstructionsWriteTheirResult := by
  refine ⟨⟨?_, ?_, ?_, ?_⟩, fun s rd rs1 rs2 => ⟨?_, ?_, ?_, ?_⟩⟩
  · exact rowReads_of_getElem (k := 23) rfl
  · exact rowReads_of_getElem (k := 24) rfl
  · exact rowReads_of_getElem (k := 25) rfl
  · exact rowReads_of_getElem (k := 26) rfl
  · exact completesInt_of_finishInt rfl (by rw [quotientSigned, tdiv_eq_sign_mul_natAbs_div])
  · exact completesInt_of_finishInt rfl
      (by rw [remainderSigned, mul_comm (Int.tdiv _ _), ← Int.tmod_def, tmod_eq_sign_mul_natAbs_mod])
  · exact completesInt_of_finishInt rfl rfl
  · exact completesInt_of_finishInt rfl rfl

end Sys2Proof.Machine
end

section
/-! PROOFS about the loads (20_memory.md, 42_loads.md): the values read as integers, and that the instructions complete. -/

namespace Sys2Proof.Machine

/-! ### The halfword and the word at an address: little-endian, each byte address modulo 2^32 (rules R42, R43, R46) -/

/-- Concatenation as a sum: the two parts occupy disjoint bits. -/
theorem toNat_append_eq_add {m n : Nat} (hi : BitVec m) (lo : BitVec n) :
    (hi ++ lo).toNat = lo.toNat + 2 ^ n * hi.toNat := by
  rw [BitVec.toNat_append, ← Nat.shiftLeft_add_eq_or_of_lt lo.isLt, Nat.shiftLeft_eq, Nat.add_comm, Nat.mul_comm]

theorem State.memRead2_toNat (s : State) (a : Word) :
    (s.memRead2 a).toNat = (s.byteAt a).toNat + 2 ^ 8 * (s.byteAt (a + 1#32)).toNat :=
  toNat_append_eq_add _ _

theorem State.memRead4_toNat (s : State) (a : Word) :
    (s.memRead4 a).toNat = (s.byteAt a).toNat + 2 ^ 8 * (s.byteAt (a + 1#32)).toNat +
      2 ^ 16 * (s.byteAt (a + 2#32)).toNat + 2 ^ 24 * (s.byteAt (a + 3#32)).toNat := by
  rw [State.memRead4, toNat_append_eq_add, toNat_append_eq_add, toNat_append_eq_add]
  omega

/-! ### The two extensions to 32 bits (rule R41) -/

/-- Sign extension keeps the signed reading: from 2^w on, the value read is the unsigned one less 2^(w+1). -/
theorem signExtend_eq_ofInt {w : Nat} (v : BitVec (w + 1)) :
    v.signExtend 32 = BitVec.ofInt 32 (if v.toNat < 2 ^ w then v.toNat else (v.toNat : Int) - 2 ^ (w + 1)) := by
  have hsign : 2 * v.toNat < 2 ^ (w + 1) ↔ v.toNat < 2 ^ w := by omega
  rw [BitVec.signExtend, BitVec.toInt_eq_toNat_cond]
  simp only [hsign, Nat.cast_pow, Nat.cast_ofNat]

/-! ### The family -/

/-- Settles O27: each load's row reads its words, and its meaning is `finishInt` of the bytes read at the effective
address, whose number the lemmas above give as the little-endian sum, extended (rules R151 to R155). -/
theorem loadsWriteTheBytesRead : Obligations.LoadsWriteTheBytesRead := by
  refine ⟨⟨?_, ?_, ?_, ?_, ?_⟩, fun s rd rs1 imm => ?_⟩
  · exact rowReads_of_getElem (k := 27) rfl
  · exact rowReads_of_getElem (k := 28) rfl
  · exact rowReads_of_getElem (k := 29) rfl
  · exact rowReads_of_getElem (k := 30) rfl
  · exact rowReads_of_getElem (k := 31) rfl
  · simp only [BitVec.add_zero]
    refine ⟨?_, ?_, ?_, ?_, ?_⟩
    · exact completesInt_of_finishInt rfl (signExtend_eq_ofInt (s.byteAt _))
    · rw [← State.memRead2_toNat]
      exact completesInt_of_finishInt rfl (signExtend_eq_ofInt (s.memRead2 _))
    · rw [← State.memRead4_toNat, BitVec.ofNat_toNat, BitVec.setWidth_eq]
      exact completesInt_of_finishInt rfl rfl
    · rw [BitVec.ofNat_toNat]
      exact completesInt_of_finishInt rfl rfl
    · rw [← State.memRead2_toNat, BitVec.ofNat_toNat]
      exact completesInt_of_finishInt rfl rfl

end Sys2Proof.Machine
end

section
/-! PROOFS about the stores (20_memory.md, 43_stores.md): a store writes a list of bytes at consecutive addresses, so that
one lemma says what each of the three leaves behind. -/

namespace Sys2Proof.Machine

/-! ### Bytes at consecutive addresses, each modulo 2^32 (rules R44, R46) -/

/-- The bytes stored at `a`, `a + 1`, …, the first at `a`. -/
def State.setBytes (s : State) (a : Word) : List Byte → State
  | [] => s
  | b :: rest => (s.setByte a b).setBytes (a + 1#32) rest

theorem add_one_add_ofNat (a : Word) (k : Nat) : a + 1#32 + BitVec.ofNat 32 k = a + BitVec.ofNat 32 (k + 1) := by
  rw [BitVec.add_assoc, ← BitVec.ofNat_add, Nat.add_comm]

@[simp] theorem State.setBytes_pc (s : State) (a : Word) (bytes : List Byte) : (s.setBytes a bytes).pc = s.pc := by
  induction bytes generalizing s a with
  | nil => rfl
  | cons b rest ih => exact ih (s.setByte a b) (a + 1#32)

@[simp] theorem State.readInt_setBytes (s : State) (a : Word) (bytes : List Byte) (r : RegIdx) :
    (s.setBytes a bytes).readInt r = s.readInt r := by
  induction bytes generalizing s a with
  | nil => rfl
  | cons b rest ih => exact (ih _ _).trans (State.readInt_setByte ..)

@[simp] theorem State.readFloat_setBytes (s : State) (a : Word) (bytes : List Byte) (r : RegIdx) :
    (s.setBytes a bytes).readFloat r = s.readFloat r := by
  induction bytes generalizing s a with
  | nil => rfl
  | cons b rest ih => exact (ih _ _).trans (State.readFloat_setByte ..)

/-- A byte at none of the addresses stored at is left alone, canonical memory or not. -/
theorem State.byteAt_setBytes_of_ne (s : State) (a : Word) (bytes : List Byte) {c : Word}
    (h : ∀ k < bytes.length, c ≠ a + BitVec.ofNat 32 k) : (s.setBytes a bytes).byteAt c = s.byteAt c := by
  induction bytes generalizing s a with
  | nil => rfl
  | cons b rest ih =>
    have hfirst : c ≠ a := by simpa using h 0 (Nat.zero_lt_succ _)
    have hrest : ∀ k < rest.length, c ≠ a + 1#32 + BitVec.ofNat 32 k := fun k hk => by
      rw [add_one_add_ofNat]; exact h (k + 1) (Nat.succ_lt_succ hk)
    exact (ih _ _ hrest).trans (State.byteAt_setByte_of_ne s a b c hfirst)

/-- Each byte stored is there: the later ones are at other addresses, as no address comes round again within 2^32 bytes. -/
theorem State.byteAt_setBytes_getElem (s : State) (a : Word) (bytes : List Byte) (hwf : s.mem.wf = true)
    (hlen : bytes.length ≤ 2 ^ 32) {k : Nat} {v : Byte} (hk : bytes[k]? = some v) :
    (s.setBytes a bytes).byteAt (a + BitVec.ofNat 32 k) = v := by
  induction bytes generalizing s a k with
  | nil => cases hk
  | cons b rest ih =>
    rw [List.length_cons] at hlen
    cases k with
    | zero =>
      obtain rfl : b = v := Option.some.inj hk
      have hlater : ∀ j < rest.length, a ≠ a + 1#32 + BitVec.ofNat 32 j := fun j hj => by bv_omega
      rw [BitVec.add_zero]
      calc ((s.setByte a b).setBytes (a + 1#32) rest).byteAt a
        _ = (s.setByte a b).byteAt a := State.byteAt_setBytes_of_ne _ _ _ hlater
        _ = b := by rw [State.byteAt_setByte s a b a hwf, if_pos rfl]
    | succ k =>
      rw [← add_one_add_ofNat]
      exact ih _ _ (s.setByte_wf a b hwf) (Nat.le_of_succ_le hlen) hk

/-! ### The three stores as lists of bytes (rules R41, R44) -/

theorem State.storeByte_eq_setBytes (s : State) (a v : Word) : s.storeByte a v = s.setBytes a [v.extractLsb' 0 8] := rfl

theorem State.storeHalf_eq_setBytes (s : State) (a v : Word) :
    s.storeHalf a v = s.setBytes a [v.extractLsb' 0 8, v.extractLsb' 8 8] := by
  have hlow : (v.extractLsb' 0 16).extractLsb' 0 8 = v.extractLsb' 0 8 := BitVec.extractLsb'_extractLsb'_of_le (by decide)
  have hhigh : (v.extractLsb' 0 16).extractLsb' 8 8 = v.extractLsb' 8 8 := BitVec.extractLsb'_extractLsb'_of_le (by decide)
  rw [State.storeHalf, State.memWrite2, hlow, hhigh]
  rfl

theorem State.storeWord_eq_setBytes (s : State) (a v : Word) :
    s.storeWord a v =
      s.setBytes a [v.extractLsb' 0 8, v.extractLsb' 8 8, v.extractLsb' 16 8, v.extractLsb' 24 8] := by
  have h2 : a + 2#32 = a + 1#32 + 1#32 := (add_one_add_ofNat a 1).symm
  have h3 : a + 3#32 = a + 1#32 + 1#32 + 1#32 := by rw [← h2]; exact (BitVec.add_assoc a 2#32 1#32).symm
  rw [State.storeWord, State.memWrite4, h2, h3]
  rfl

/-! ### Completion -/

/-- An instruction whose meaning stores a list of bytes and advances the pc completes so; `h` is that meaning. -/
theorem completesStore_of_setBytes {i : Instr} {s : State} {ea : Word} {bytes : List Byte} (hwf : s.mem.wf = true)
    (hlen : bytes.length ≤ 2 ^ 32) (h : exec i s = .next (s.setBytes ea bytes).advance) :
    CompletesStore i s ea bytes := by
  refine ⟨_, h, rfl, ?_, fun k v hk => ?_, fun r => ?_, fun r => ?_, fun a ha => ?_⟩
  · rw [State.advance_pc, State.setBytes_pc]
  · rw [State.byteAt_advance, s.byteAt_setBytes_getElem ea bytes hwf hlen hk]
  · rw [State.readInt_advance, State.readInt_setBytes]
  · rw [State.readFloat_advance, State.readFloat_setBytes]
  · rw [State.byteAt_advance]
    refine s.byteAt_setBytes_of_ne ea bytes fun k hk hak => ha ?_
    exact List.mem_map.mpr ⟨k, List.mem_range.mpr hk, hak.symm⟩

/-! ### The family -/

/-- Settles O28: each store's row reads its words, and its meaning stores the list of the low bytes of x[rs2] at the
effective address, of which `completesStore_of_setBytes` gives the bytes and the frame (rules R161 to R163). -/
theorem storesWriteTheLowBytes : Obligations.StoresWriteTheLowBytes := by
  refine ⟨⟨?_, ?_, ?_⟩, fun s rs1 rs2 imm hwf => ⟨rfl, ?_, ?_, ?_⟩⟩
  · exact rowReads_of_getElem (k := 32) rfl
  · exact rowReads_of_getElem (k := 33) rfl
  · exact rowReads_of_getElem (k := 34) rfl
  · exact completesStore_of_setBytes hwf (by simp) (by rw [← State.storeByte_eq_setBytes]; rfl)
  · exact completesStore_of_setBytes hwf (by simp) (by rw [← State.storeHalf_eq_setBytes]; rfl)
  · exact completesStore_of_setBytes hwf (by simp) (by rw [← State.storeWord_eq_setBytes]; rfl)

end Sys2Proof.Machine
end

section
/-! PROOFS about the conditional branches (44_branches.md): the two destinations as integers modulo 2^32, the predicates,
and that the instructions complete. -/

namespace Sys2Proof.Machine

/-! ### The two destinations (rules R24, R25) -/

/-- The target is the pc, unsigned, plus the signed offset, modulo 2^32. -/
theorem State.relativeTarget_eq_ofInt (s : State) (imm : Word) :
    s.relativeTarget imm = BitVec.ofInt 32 (s.pc.toNat + imm.toInt) := by
  rw [BitVec.ofInt_add, BitVec.ofInt_natCast, BitVec.ofNat_toNat, BitVec.setWidth_eq, BitVec.ofInt_toInt,
    State.relativeTarget]

/-- The instruction that follows is at the target of the offset 4. -/
theorem pc_add_four_eq_ofInt (s : State) : s.pc + 4#32 = BitVec.ofInt 32 (s.pc.toNat + 4) :=
  s.relativeTarget_eq_ofInt 4#32

/-! ### The ordered predicates (rules R173 to R176) -/

theorem ltSigned_iff (a b : Word) : ltSigned a b = true ↔ a.toInt < b.toInt := decide_eq_true_iff

theorem ltUnsigned_iff (a b : Word) : ltUnsigned a b = true ↔ a.toNat < b.toNat := decide_eq_true_iff

theorem not_ltSigned_iff (a b : Word) : (!ltSigned a b) = true ↔ a.toInt ≥ b.toInt := by
  rw [Bool.not_eq_true', Bool.eq_false_iff, Ne, ltSigned_iff, not_lt]

theorem not_ltUnsigned_iff (a b : Word) : (!ltUnsigned a b) = true ↔ a.toNat ≥ b.toNat := by
  rw [Bool.not_eq_true', Bool.eq_false_iff, Ne, ltUnsigned_iff, not_lt]

/-! ### Completion -/

/-- An instruction whose meaning only sets the pc completes there with nothing written. -/
theorem completesPlain_of_retire {i : Instr} {s : State} {target : Word} (h : exec i s = .next (s.retire target)) :
    CompletesPlain i s target :=
  ⟨_, h, rfl, rfl, s.readInt_retire target, s.readFloat_retire target, s.byteAt_retire target⟩

/-- An instruction whose meaning ends by `branch` completes at the destination its predicate selects; `hp` gives the
verdict as a proposition (rule R170). -/
theorem completesPlain_of_branch {i : Instr} {s : State} {taken : Bool} {imm : Word} {p : Prop} [Decidable p]
    (h : exec i s = s.branch taken imm) (hp : taken = true ↔ p) :
    CompletesPlain i s
      (if p then BitVec.ofInt 32 (s.pc.toNat + imm.toInt) else BitVec.ofInt 32 (s.pc.toNat + 4)) := by
  rw [← s.relativeTarget_eq_ofInt, ← pc_add_four_eq_ofInt]
  by_cases hc : p
  · obtain rfl : taken = true := hp.mpr hc
    rw [if_pos hc]
    exact completesPlain_of_retire (h.trans (s.branch_taken imm))
  · obtain rfl : taken = false := Bool.eq_false_iff.mpr (mt hp.mp hc)
    rw [if_neg hc]
    exact completesPlain_of_retire (h.trans (s.branch_not_taken imm))

/-! ### The family -/

/-- Settles O32: each branch's row reads its words, and its meaning is `branch` of the rule's predicate, whose two ends
`completesPlain_of_branch` gives (rules R171 to R176). -/
theorem branchesGoWhereThePredicateSays : Obligations.BranchesGoWhereThePredicateSays := by
  refine ⟨⟨?_, ?_, ?_, ?_, ?_, ?_⟩, fun s rs1 rs2 imm => ⟨?_, ?_, ?_, ?_, ?_, ?_⟩⟩
  · exact rowReads_of_getElem (k := 35) rfl
  · exact rowReads_of_getElem (k := 36) rfl
  · exact rowReads_of_getElem (k := 37) rfl
  · exact rowReads_of_getElem (k := 38) rfl
  · exact rowReads_of_getElem (k := 39) rfl
  · exact rowReads_of_getElem (k := 40) rfl
  · exact completesPlain_of_branch rfl beq_iff_eq
  · exact completesPlain_of_branch rfl bne_iff_ne
  · exact completesPlain_of_branch rfl (ltSigned_iff _ _)
  · exact completesPlain_of_branch rfl (not_ltSigned_iff _ _)
  · exact completesPlain_of_branch rfl (ltUnsigned_iff _ _)
  · exact completesPlain_of_branch rfl (not_ltUnsigned_iff _ _)

end Sys2Proof.Machine
end

section
/-! PROOFS about the unconditional jumps (45_jumps.md): the JALR words that no row reads, the link and the two targets as
integers modulo 2^32, and that the instructions complete. -/

namespace Sys2Proof

/-- The one row with the opcode JALR is jalr's own (30_encoding.md rule R75). -/
theorem row_of_jalr_opcode : ∀ r ∈ decodeTable,
    opcodeOf r.bits = 0b1100111#7 → r.mask = 0x0000707F#32 ∧ r.bits = 0x00000067#32 := by
  decide

/-- No row reads a JALR word with a funct3 other than 000: jalr's row compares funct3 too (rules R77, R182). -/
theorem decodeWord_jalr_of_funct3_ne {w : Word} (hop : opcodeOf w = 0b1100111#7) (hf3 : funct3Of w ≠ 0#3) :
    decodeWord w = .error (.noMatchingRow w) := by
  cases hd : decodeWord w with
  | error e => rw [(no_match_of_decodeWord hd).1]
  | ok i =>
    obtain ⟨r, hr, hm, -⟩ := matches_of_decodeWord hd
    obtain ⟨hmask, hbits⟩ := row_of_jalr_opcode r hr ((opcodeOf_of_matches hr hm).symm.trans hop)
    rw [hmask, hbits] at hm
    exact absurd (extractLsb'_of_matches 12 3 hm (by decide)) hf3

end Sys2Proof

namespace Sys2Proof.Machine

/-! ### The link and the target of jalr (rules R180, R182) -/

/-- The link is the address of the instruction that follows, modulo 2^32. -/
theorem State.linkAddress_eq_ofNat (s : State) : s.linkAddress = BitVec.ofNat 32 (s.pc.toNat + 4) := by
  rw [BitVec.ofNat_add, BitVec.ofNat_toNat, BitVec.setWidth_eq, State.linkAddress]

/-- The mask 0xFFFFFFFE clears bit 0 and keeps every other bit: it takes away what is odd of the number. -/
theorem and_mask_bit_zero_eq_ofNat (v : Word) : v &&& 0xFFFFFFFE#32 = BitVec.ofNat 32 (v.toNat - v.toNat % 2) := by
  have hshift : v &&& 0xFFFFFFFE#32 = (v >>> 1) <<< 1 := by
    apply BitVec.eq_of_getLsbD_eq
    intro i hi
    simp only [BitVec.getLsbD_and, BitVec.getLsbD_shiftLeft, BitVec.getLsbD_ushiftRight]
    interval_cases i <;> simp
  rw [hshift, ← Nat.div_mul_self_eq_mod_sub_self]
  apply BitVec.eq_of_toNat_eq
  rw [BitVec.toNat_shiftLeft, BitVec.toNat_ushiftRight, BitVec.toNat_ofNat, Nat.shiftRight_eq_div_pow, Nat.shiftLeft_eq,
    pow_one]

/-- The target of jalr is the even part of the sum, modulo 2^32, of x[rs1] and the immediate. -/
theorem State.indirectTarget_eq_ofNat (s : State) (rs1 : RegIdx) (imm : Word) :
    s.indirectTarget rs1 imm =
      BitVec.ofNat 32 (((s.readInt rs1).toNat + imm.toNat) % 2 ^ 32 -
        ((s.readInt rs1).toNat + imm.toNat) % 2 ^ 32 % 2) := by
  rw [State.indirectTarget, and_mask_bit_zero_eq_ofNat, BitVec.toNat_add]

/-! ### Completion -/

/-- A write of x[rd] and a jump change x[rd] alone (rules R22, R180). -/
theorem State.onlyIntWritten_writeInt_retire (s : State) (rd : RegIdx) (v target : Word) :
    s.OnlyIntWritten ((s.writeInt rd v).retire target) rd v :=
  ⟨fun r => by rw [State.readInt_retire, State.readInt_writeInt],
    fun r => by rw [State.readFloat_retire, State.readFloat_writeInt],
    fun a => by rw [State.byteAt_retire, State.byteAt_writeInt]⟩

/-- An instruction whose meaning links and sets the pc completes there with the link in x[rd]; `ht` gives the target
another form. -/
theorem completesInt_of_link {i : Instr} {s : State} {rd : RegIdx} {target target' : Word}
    (h : exec i s = .next ((s.writeInt rd s.linkAddress).retire target)) (ht : target = target') :
    CompletesInt i s rd (BitVec.ofNat 32 (s.pc.toNat + 4)) target' := by
  subst ht
  rw [← s.linkAddress_eq_ofNat]
  exact ⟨_, h, rfl, rfl, s.onlyIntWritten_writeInt_retire rd s.linkAddress target⟩

/-! ### The family -/

/-- Settles O33: each jump's row reads its words, the invalid JALR words are those `decodeWord_jalr_of_funct3_ne` finds no
row for, and each meaning links and goes to its target, which the lemmas give as an integer (rules R181, R182). -/
theorem jumpsLinkAndRedirect : Obligations.JumpsLinkAndRedirect := by
  refine ⟨⟨?_, ?_, fun w => decodeWord_jalr_of_funct3_ne⟩, fun s rd rs1 imm => ⟨?_, ?_⟩⟩
  · exact rowReads_of_getElem (k := 41) rfl
  · exact rowReads_of_getElem (k := 42) rfl
  · exact completesInt_of_link rfl (s.relativeTarget_eq_ofInt imm)
  · exact completesInt_of_link rfl (s.indirectTarget_eq_ofNat rs1 imm)

end Sys2Proof.Machine
end

section
/-! PROOFS about the upper-immediate instructions (46_upper_immediate.md): that they complete with their value. -/

namespace Sys2Proof.Machine

/-- Settles O34: each row reads its words, the immediate is `immU`'s own definition, and each meaning is `finishInt`, of
the immediate or of its sum with the pc, which `BitVec.add_def` takes modulo 2^32 (rules R191, R192). -/
theorem upperImmediatesWriteTheirValue : Obligations.UpperImmediatesWriteTheirValue := by
  refine ⟨⟨?_, ?_, fun w => rfl⟩, fun s rd imm => ⟨?_, ?_⟩⟩
  · exact rowReads_of_getElem (k := 43) rfl
  · exact rowReads_of_getElem (k := 44) rfl
  · exact completesInt_of_finishInt rfl rfl
  · exact completesInt_of_finishInt rfl (BitVec.add_def s.pc imm)

end Sys2Proof.Machine
end

section
/-! PROOFS about the system instructions (47_system.md): the two words that end a step, and that every other instruction
retires. -/

namespace Sys2Proof

/-- The one row that builds `ecall` is the one of the whole word 0x00000073. -/
theorem row_of_build_ecall (w : Word) : ∀ r ∈ decodeTable,
    r.build w = .ecall → r.mask = 0xFFFFFFFF#32 ∧ r.bits = 0x00000073#32 := by
  simp [decodeTable, rowsRegister, rowsImmediate, rowsMulDiv, rowsMemory, rowsControl, rowsSystem, rowsFma]

/-- The one row that builds `ebreak` is the one of the whole word 0x00100073. -/
theorem row_of_build_ebreak (w : Word) : ∀ r ∈ decodeTable,
    r.build w = .ebreak → r.mask = 0xFFFFFFFF#32 ∧ r.bits = 0x00100073#32 := by
  simp [decodeTable, rowsRegister, rowsImmediate, rowsMulDiv, rowsMemory, rowsControl, rowsSystem, rowsFma]

/-- An instruction that only a row of one whole word builds is read from that word alone; `hread` says that the row reads
its word, `honly` that no other row builds the instruction (30_encoding.md rule R76). -/
theorem decodeWord_eq_iff_of_whole_word {i : Instr} {bits : Word}
    (hread : Machine.RowReads bits 0xFFFFFFFF#32 fun _ => i)
    (honly : ∀ w, ∀ r ∈ decodeTable, r.build w = i → r.mask = 0xFFFFFFFF#32 ∧ r.bits = bits) (w : Word) :
    decodeWord w = .ok i ↔ w = bits := by
  have hwhole : w &&& 0xFFFFFFFF#32 = w := BitVec.and_allOnes
  constructor
  · intro h
    obtain ⟨r, hr, hm, hi⟩ := matches_of_decodeWord h
    obtain ⟨hmask, hbits⟩ := honly w r hr hi.symm
    rwa [hmask, hbits, hwhole] at hm
  · intro h
    exact hread w (hwhole.trans h)

end Sys2Proof

namespace Sys2Proof.Machine

/-- The meaning of every instruction but `ecall` and `ebreak` ends with `retire` of some state, by definition: no
operand and no state makes it answer anything else (60_exceptions.md rule R300). -/
theorem exec_eq_next_retire {i : Instr} (hecall : i ≠ .ecall) (hebreak : i ≠ .ebreak) (s : State) :
    ∃ u target, exec i s = .next (State.retire u target) := by
  cases i with
  | ecall => exact absurd rfl hecall
  | ebreak => exact absurd rfl hebreak
  | _ => exact ⟨_, _, rfl⟩

/-- Settles O12: such an instruction ends with `retire`, which reports Retired (rules R200, R218, R306, R307). -/
theorem everyOtherInstructionRetires : Obligations.EveryOtherInstructionRetires := by
  intro i s hecall hebreak
  obtain ⟨u, target, hx⟩ := exec_eq_next_retire hecall hebreak s
  exact ⟨u.retire target, hx, u.retire_outcome target⟩

/-- Settles O36: the rows of the two calls compare the whole word and no other row builds them; their meanings are `raise`
of the outcome, which changes the outcome alone (rules R201, R202, R304). -/
theorem ecallAndEbreakEndTheStepWithTheirOutcome : Obligations.EcallAndEbreakEndTheStepWithTheirOutcome := by
  refine ⟨?_, ?_, fun s => ⟨rfl, rfl⟩⟩
  · exact decodeWord_eq_iff_of_whole_word (rowReads_of_getElem (k := 45) rfl) row_of_build_ecall
  · exact decodeWord_eq_iff_of_whole_word (rowReads_of_getElem (k := 46) rfl) row_of_build_ebreak

/-- Settles O35: each fence's row reads its words, whatever the bits outside opcode and funct3, and each meaning is
`advance`, an update of pc and outcome alone (rules R203, R204). -/
theorem fencesOnlyAdvance : Obligations.FencesOnlyAdvance := by
  refine ⟨?_, ?_, fun s => ⟨rfl, rfl⟩⟩
  · exact rowReads_of_getElem (k := 47) rfl
  · exact rowReads_of_getElem (k := 48) rfl

end Sys2Proof.Machine
end

section
/-! PROOFS about the fused multiply-add (48_fp_fma.md): `fma32` on finite operands, the product that is not rounded before
the sum, and that the instructions complete. -/

namespace Sys2Proof.Machine

/-! ### Finite operands (rules R210, R214) -/

theorem isNaN_of_isFinite {v : Word} (h : isFinite v = true) : isNaN v = false := by
  rw [isNaN, beq_eq_false_iff_ne.mpr (bne_iff_ne.mp h), Bool.false_and]

theorem isInfinity_of_isFinite {v : Word} (h : isFinite v = true) : isInfinity v = false := by
  rw [isInfinity, beq_eq_false_iff_ne.mpr (bne_iff_ne.mp h), Bool.false_and]

/-- Of finite operands neither the NaN case nor an infinite one applies: the exact value decides. -/
theorem fma32_of_isFinite {a b c : Word} (ha : isFinite a = true) (hb : isFinite b = true) (hc : isFinite c = true) :
    fma32 a b c = if fusedExact a b c = 0 then zeroResult a b c else round32 (fusedExact a b c) := by
  simp only [fma32, isNaN_of_isFinite ha, isNaN_of_isFinite hb, isNaN_of_isFinite hc, isInfinity_of_isFinite ha,
    isInfinity_of_isFinite hb, isInfinity_of_isFinite hc, Bool.or_self, Bool.false_eq_true, if_false]

/-- One rounding of the exact value, where that is not zero (rule R214). -/
theorem fma32_eq_round32 {a b c : Word} {n : Int} (ha : isFinite a = true) (hb : isFinite b = true)
    (hc : isFinite c = true) (hn : fusedExact a b c = n) (hne : n ≠ 0) : fma32 a b c = round32 n := by
  subst hn
  rw [fma32_of_isFinite ha hb hc, if_neg hne]

/-- Where the exact value is zero, the zero of rule R217's table. -/
theorem fma32_eq_zeroResult {a b c : Word} (ha : isFinite a = true) (hb : isFinite b = true) (hc : isFinite c = true)
    (hn : fusedExact a b c = 0) : fma32 a b c = zeroResult a b c := by
  rw [fma32_of_isFinite ha hb hc, if_pos hn]

/-! ### One rounding against two (rule R224), values counted in 2^-298 -/

/-- The fused value is exactly 2^-24, the last term of (1 + 2^-12)^2 = 1 + 2^-11 + 2^-24, and a pattern holds it. -/
theorem fma32_square_minus_leading_terms :
    fma32 0x3F800800#32 0x3F800800#32 0xBF801000#32 = 0x33800000#32 :=
  calc fma32 0x3F800800#32 0x3F800800#32 0xBF801000#32
    _ = round32 (2 ^ (298 - 24)) :=
      fma32_eq_round32 (by decide) (by decide) (by decide) (by decide +kernel) (by positivity)
    _ = 0x33800000#32 := by decide +kernel

/-- The square alone does not fit in 24 bits: rounding gives 1 + 2^-11 and loses the term 2^-24. -/
theorem fma32_square_rounded :
    fma32 0x3F800800#32 0x3F800800#32 0x80000000#32 = 0x3F801000#32 :=
  calc fma32 0x3F800800#32 0x3F800800#32 0x80000000#32
    _ = round32 (2 ^ 298 + 2 ^ (298 - 11) + 2 ^ (298 - 24)) :=
      fma32_eq_round32 (by decide) (by decide) (by decide) (by decide +kernel) (by positivity)
    _ = 0x3F801000#32 := by decide +kernel

/-- Settles O44: fused, the term 2^-24 is what is left; rounded first, the product is 1 + 2^-11, and the sum with its
negation is exactly zero, which is +0 by rule R217. -/
theorem fusedDiffersFromTwoRoundings : Obligations.FusedDiffersFromTwoRoundings := by
  refine ⟨fma32_square_minus_leading_terms, ?_⟩
  rw [fma32_square_rounded, fma32_eq_zeroResult (by decide) (by decide) (by decide) (by decide +kernel)]
  rfl

/-! ### Completion -/

/-- A write of f[rd] and an advance of the pc change f[rd] alone, f0 being like every other (rules R23, R26). -/
theorem State.onlyFloatWritten_writeFloat_advance (s : State) (rd : RegIdx) (v : Word) :
    s.OnlyFloatWritten (s.writeFloat rd v).advance rd v :=
  ⟨fun r => by rw [State.readFloat_advance, State.readFloat_writeFloat],
    fun r => by rw [State.readInt_advance, State.readInt_writeFloat],
    fun a => by rw [State.byteAt_advance, State.byteAt_writeFloat]⟩

/-- An instruction whose meaning ends by `finishFloat` completes at pc + 4. -/
theorem completesFloat_of_finishFloat {i : Instr} {s : State} {rd : RegIdx} {v : Word}
    (h : exec i s = s.finishFloat rd v) : CompletesFloat i s rd v :=
  ⟨_, h.trans (s.finishFloat_next rd v), rfl, rfl, s.onlyFloatWritten_writeFloat_advance rd v⟩

/-! ### The family -/

/-- Settles O37: each instruction's row reads its words, and its meaning is `finishFloat` of `fma32`, in which `fneg` is by
definition the inversion of the sign bit (rules R213, R220 to R223). -/
theorem fusedInstructionsWriteTheirResult : Obligations.FusedInstructionsWriteTheirResult := by
  refine ⟨⟨?_, ?_, ?_, ?_⟩, fun s rd rs1 rs2 rs3 => ⟨?_, ?_, ?_, ?_⟩⟩
  · exact rowReads_of_getElem (k := 49) rfl
  · exact rowReads_of_getElem (k := 50) rfl
  · exact rowReads_of_getElem (k := 51) rfl
  · exact rowReads_of_getElem (k := 52) rfl
  · exact completesFloat_of_finishFloat rfl
  · exact completesFloat_of_finishFloat rfl
  · exact completesFloat_of_finishFloat rfl
  · exact completesFloat_of_finishFloat rfl

end Sys2Proof.Machine
end

section
/-! PROOFS about decoding and encoding (30_encoding.md): what encode writes is read back, the immediates as sums of
fields, each format's re-encoding, and which words no row reads. -/

namespace Sys2Proof

/-! ### Re-encoding (rules R69, R70) -/

/-- Every well-formed instruction's word matches a row that reads it back: the laws of Laws/PerInstr, one for each
constructor. -/
theorem encode_matches_row (i : Instr) : Laws.EncodeMatches.Statement i :=
  open Laws.EncodeMatches in
  match i with
  | .add _ _ _ => add _ _ _
  | .sub _ _ _ => sub _ _ _
  | .sll _ _ _ => sll _ _ _
  | .slt _ _ _ => slt _ _ _
  | .sltu _ _ _ => sltu _ _ _
  | .xor _ _ _ => xor _ _ _
  | .srl _ _ _ => srl _ _ _
  | .sra _ _ _ => sra _ _ _
  | .or _ _ _ => or _ _ _
  | .and _ _ _ => and _ _ _
  | .addi _ _ _ => addi _ _ _
  | .slti _ _ _ => slti _ _ _
  | .sltiu _ _ _ => sltiu _ _ _
  | .xori _ _ _ => xori _ _ _
  | .ori _ _ _ => ori _ _ _
  | .andi _ _ _ => andi _ _ _
  | .slli _ _ _ => slli _ _ _
  | .srli _ _ _ => srli _ _ _
  | .srai _ _ _ => srai _ _ _
  | .mul _ _ _ => mul _ _ _
  | .mulh _ _ _ => mulh _ _ _
  | .mulhsu _ _ _ => mulhsu _ _ _
  | .mulhu _ _ _ => mulhu _ _ _
  | .div _ _ _ => div _ _ _
  | .divu _ _ _ => divu _ _ _
  | .rem _ _ _ => rem _ _ _
  | .remu _ _ _ => remu _ _ _
  | .lb _ _ _ => lb _ _ _
  | .lh _ _ _ => lh _ _ _
  | .lw _ _ _ => lw _ _ _
  | .lbu _ _ _ => lbu _ _ _
  | .lhu _ _ _ => lhu _ _ _
  | .sb _ _ _ => sb _ _ _
  | .sh _ _ _ => sh _ _ _
  | .sw _ _ _ => sw _ _ _
  | .beq _ _ _ => beq _ _ _
  | .bne _ _ _ => bne _ _ _
  | .blt _ _ _ => blt _ _ _
  | .bge _ _ _ => bge _ _ _
  | .bltu _ _ _ => bltu _ _ _
  | .bgeu _ _ _ => bgeu _ _ _
  | .jal _ _ => jal _ _
  | .jalr _ _ _ => jalr _ _ _
  | .lui _ _ => lui _ _
  | .auipc _ _ => auipc _ _
  | .ecall => ecall
  | .ebreak => ebreak
  | .fence => fence
  | .fenceI => fenceI
  | .fmaddS _ _ _ _ => fmaddS _ _ _ _
  | .fmsubS _ _ _ _ => fmsubS _ _ _ _
  | .fnmsubS _ _ _ _ => fnmsubS _ _ _ _
  | .fnmaddS _ _ _ _ => fnmaddS _ _ _ _

theorem decodeWord_encode {i : Instr} (h : i.wellFormed = true) : decodeWord (encode i) = .ok i := by
  obtain ⟨r, hr, hm, hi⟩ := encode_matches_row i h
  rw [decodeWord_of_matches hr hm, hi]

/-- Settles O1: the word is read back by `decodeWord_encode`, and decoding its bytes is decoding it. -/
theorem decodeOfEncodeIsTheInstruction : Obligations.DecodeOfEncodeIsTheInstruction := by
  intro i h
  refine ⟨decodeWord_encode h, fun rest => ?_⟩
  rw [encodeBytes, decode_bytesOfWord, decodeWord_encode h]
  rfl

/-! ### The immediates as sums of their fields (rules R63 to R67) -/

/-- The top bit of a signed number has weight -1 by itself; each concatenation below then doubles it once per bit. -/
theorem toInt_bit (b : BitVec 1) : b.toInt = -b.toNat := by decide +revert

theorem immI_toInt (w : Word) :
    (immI w).toInt = -2048 * (w.extractLsb' 31 1).toNat + (w.extractLsb' 20 11).toNat := by
  have hsplit : w.extractLsb' 20 12 = w.extractLsb' 31 1 ++ w.extractLsb' 20 11 :=
    (BitVec.extractLsb'_append_extractLsb'_eq_extractLsb' (start₁ := 20) (len₁ := 11) (len₂ := 1) rfl).symm
  rw [immI, BitVec.toInt_signExtend_of_le (by decide), hsplit]
  simp only [BitVec.toInt_append, toInt_bit]
  norm_num

theorem immS_toInt (w : Word) :
    (immS w).toInt =
      -2048 * (w.extractLsb' 31 1).toNat + 32 * (w.extractLsb' 25 6).toNat + (w.extractLsb' 7 5).toNat := by
  have hsplit : w.extractLsb' 25 7 = w.extractLsb' 31 1 ++ w.extractLsb' 25 6 :=
    (BitVec.extractLsb'_append_extractLsb'_eq_extractLsb' (start₁ := 25) (len₁ := 6) (len₂ := 1) rfl).symm
  rw [immS, BitVec.toInt_signExtend_of_le (by decide), hsplit]
  simp only [BitVec.toInt_append, toInt_bit]
  norm_num
  ring

theorem immB_toInt (w : Word) :
    (immB w).toInt = -4096 * (w.extractLsb' 31 1).toNat + 2048 * (w.extractLsb' 7 1).toNat +
      32 * (w.extractLsb' 25 6).toNat + 2 * (w.extractLsb' 8 4).toNat := by
  rw [immB, BitVec.toInt_signExtend_of_le (by decide)]
  simp only [BitVec.toInt_append, toInt_bit]
  norm_num
  ring

theorem immU_toNat (w : Word) : (immU w).toNat = 4096 * (w.extractLsb' 12 20).toNat := by
  rw [immU, Machine.toNat_append_eq_add, BitVec.toNat_ofNat, Nat.zero_mod, Nat.zero_add]
  rfl

theorem immJ_toInt (w : Word) :
    (immJ w).toInt = -1048576 * (w.extractLsb' 31 1).toNat + 4096 * (w.extractLsb' 12 8).toNat +
      2048 * (w.extractLsb' 20 1).toNat + 2 * (w.extractLsb' 21 10).toNat := by
  rw [immJ, BitVec.toInt_signExtend_of_le (by decide)]
  simp only [BitVec.toInt_append, toInt_bit]
  norm_num
  ring

/-- Settles O4: the five sums above. -/
theorem immediatesHaveTheirFieldWeights : Obligations.ImmediatesHaveTheirFieldWeights := by
  refine fun w => ⟨immI_toInt w, immS_toInt w, immB_toInt w, ?_, immJ_toInt w⟩
  rw [immU_toNat, Nat.cast_mul, Nat.cast_ofNat]

/-! ### The immediates are in range: each field is below its own power of two -/

theorem immIsS12_immI (w : Word) : immIsS12 (immI w) = true := by
  have h31 := (w.extractLsb' 31 1).isLt
  have h20 := (w.extractLsb' 20 11).isLt
  simp only [immIsS12, immI_toInt, Bool.and_eq_true, decide_eq_true_eq]
  omega

theorem immIsS12_immS (w : Word) : immIsS12 (immS w) = true := by
  have h31 := (w.extractLsb' 31 1).isLt
  have h25 := (w.extractLsb' 25 6).isLt
  have h7 := (w.extractLsb' 7 5).isLt
  simp only [immIsS12, immS_toInt, Bool.and_eq_true, decide_eq_true_eq]
  omega

theorem immIsB13_immB (w : Word) : immIsB13 (immB w) = true := by
  have h31 := (w.extractLsb' 31 1).isLt
  have h7 := (w.extractLsb' 7 1).isLt
  have h25 := (w.extractLsb' 25 6).isLt
  have h8 := (w.extractLsb' 8 4).isLt
  simp only [immIsB13, immB_toInt, Bool.and_eq_true, decide_eq_true_eq, beq_iff_eq]
  omega

theorem immIsU20_immU (w : Word) : immIsU20 (immU w) = true := by
  rw [immIsU20, immU_toNat, Nat.mul_mod_right, beq_self_eq_true]

theorem immIsJ21_immJ (w : Word) : immIsJ21 (immJ w) = true := by
  have h31 := (w.extractLsb' 31 1).isLt
  have h12 := (w.extractLsb' 12 8).isLt
  have h20 := (w.extractLsb' 20 1).isLt
  have h21 := (w.extractLsb' 21 10).isLt
  simp only [immIsJ21, immJ_toInt, Bool.and_eq_true, decide_eq_true_eq, beq_iff_eq]
  omega

/-- Every row builds a well-formed instruction, of any word: its immediate, if any, is one of those above. -/
theorem wellFormed_build (w : Word) : ∀ r ∈ decodeTable, (r.build w).wellFormed = true := by
  simp [decodeTable, rowsRegister, rowsImmediate, rowsMulDiv, rowsMemory, rowsControl, rowsSystem, rowsFma,
    Instr.wellFormed, immIsS12_immI, immIsS12_immS, immIsB13_immB, immIsU20_immU, immIsJ21_immJ]

/-- Settles O2: a decoded instruction is what some row builds. -/
theorem decodedInstructionsAreWellFormed : Obligations.DecodedInstructionsAreWellFormed := by
  intro w i h
  obtain ⟨r, hr, -, rfl⟩ := matches_of_decodeWord h
  exact wellFormed_build w r hr

/-! ### Each format's fields, put back where they came from, give the word (rule R69), bit by bit -/

theorem encodeR_fields (w : Word) :
    encodeR (opcodeOf w) (funct3Of w) (funct7Of w) (rdOf w) (rs1Of w) (rs2Of w) = w := by
  unfold encodeR funct7Of rs2Of rs1Of funct3Of rdOf opcodeOf
  apply BitVec.eq_of_getLsbD_eq
  intro i hi
  simp only [BitVec.getLsbD_append, BitVec.getLsbD_extractLsb']
  interval_cases i <;> simp

theorem encodeI_fields (w : Word) : encodeI (opcodeOf w) (funct3Of w) (rdOf w) (rs1Of w) (immI w) = w := by
  unfold encodeI rs1Of funct3Of rdOf opcodeOf immI
  apply BitVec.eq_of_getLsbD_eq
  intro i hi
  simp only [BitVec.getLsbD_append, BitVec.getLsbD_extractLsb', BitVec.getLsbD_signExtend]
  interval_cases i <;> simp

theorem encodeS_fields (w : Word) : encodeS (opcodeOf w) (funct3Of w) (rs1Of w) (rs2Of w) (immS w) = w := by
  unfold encodeS rs2Of rs1Of funct3Of opcodeOf immS
  apply BitVec.eq_of_getLsbD_eq
  intro i hi
  simp only [BitVec.getLsbD_append, BitVec.getLsbD_extractLsb', BitVec.getLsbD_signExtend]
  interval_cases i <;> simp

theorem encodeB_fields (w : Word) : encodeB (opcodeOf w) (funct3Of w) (rs1Of w) (rs2Of w) (immB w) = w := by
  unfold encodeB rs2Of rs1Of funct3Of opcodeOf immB
  apply BitVec.eq_of_getLsbD_eq
  intro i hi
  simp only [BitVec.getLsbD_append, BitVec.getLsbD_extractLsb', BitVec.getLsbD_signExtend]
  interval_cases i <;> simp

theorem encodeU_fields (w : Word) : encodeU (opcodeOf w) (rdOf w) (immU w) = w := by
  unfold encodeU rdOf opcodeOf immU
  apply BitVec.eq_of_getLsbD_eq
  intro i hi
  simp only [BitVec.getLsbD_append, BitVec.getLsbD_extractLsb']
  interval_cases i <;> simp

theorem encodeJ_fields (w : Word) : encodeJ (opcodeOf w) (rdOf w) (immJ w) = w := by
  unfold encodeJ rdOf opcodeOf immJ
  apply BitVec.eq_of_getLsbD_eq
  intro i hi
  simp only [BitVec.getLsbD_append, BitVec.getLsbD_extractLsb', BitVec.getLsbD_signExtend]
  interval_cases i <;> simp

/-- The mask is zero exactly in the two ignored fields, bits 26:25 and 14:12 (log 11). -/
theorem encodeFR4_fields (w : Word) :
    encodeFR4 (opcodeOf w) (rdOf w) (rs1Of w) (rs2Of w) (rs3Of w) = w &&& 0xF9FF8FFF#32 := by
  unfold encodeFR4 rs3Of rs2Of rs1Of rdOf opcodeOf
  apply BitVec.eq_of_getLsbD_eq
  intro i hi
  simp only [BitVec.getLsbD_and, BitVec.getLsbD_append, BitVec.getLsbD_extractLsb']
  interval_cases i <;> simp

/-- Settles O3: one lemma per format; the shift amount stands where rs2 does. -/
theorem everyFormatRoundTripsEveryWord : Obligations.EveryFormatRoundTripsEveryWord := fun w =>
  ⟨encodeR_fields w, encodeR_fields w, encodeI_fields w, encodeS_fields w, encodeB_fields w, encodeU_fields w,
    encodeJ_fields w, encodeFR4_fields w⟩

/-! ### Lookup (rules R71, R76) -/

theorem lookupByEncoding_eq_some_iff (w : Word) (r : TableRow) :
    lookupByEncoding w = some r ↔ (r ∈ decodeTable ∧ w &&& r.mask = r.bits) := by
  constructor
  · intro h
    have hm : rowMatches w r = true := List.find?_some (p := rowMatches w) h
    exact ⟨List.mem_of_find?_eq_some h, eq_of_beq hm⟩
  · rintro ⟨hr, hm⟩
    exact lookup_of_matches hr hm

/-- Settles O5: the table is counted, and the lookup gives the one row that matches. -/
theorem lookupGivesTheUniqueMatchingRow : Obligations.LookupGivesTheUniqueMatchingRow :=
  ⟨rfl, by decide, lookupByEncoding_eq_some_iff⟩

/-- Settles O7: each word matches its row, whose format decoder computes the operands. -/
theorem sampleWordsDecode : Obligations.SampleWordsDecode := by
  refine ⟨?_, ?_, ?_, ?_, ?_, ?_, ?_, ?_⟩
  · exact rowReads_of_getElem (k := 1) rfl _ rfl
  · exact rowReads_of_getElem (k := 10) rfl _ rfl
  · exact rowReads_of_getElem (k := 18) rfl _ rfl
  · exact rowReads_of_getElem (k := 34) rfl _ rfl
  · exact rowReads_of_getElem (k := 36) rfl _ rfl
  · exact rowReads_of_getElem (k := 41) rfl _ rfl
  · exact rowReads_of_getElem (k := 44) rfl _ rfl
  · exact rowReads_of_getElem (k := 49) rfl _ rfl

/-! ### A row's match as equations of fields (rule R74) -/

/-- The opcode is what the mask 0x0000007F compares. -/
theorem and_mask_opcode (w : Word) : w &&& 0x0000007F#32 = 0#25 ++ opcodeOf w := by
  unfold opcodeOf
  apply BitVec.eq_of_getLsbD_eq
  intro i hi
  simp only [BitVec.getLsbD_and, BitVec.getLsbD_append, BitVec.getLsbD_extractLsb']
  interval_cases i <;> simp

/-- Opcode, funct3 and funct7 are what the mask 0xFE00707F compares. -/
theorem and_mask_opcode_funct3_funct7 (w : Word) :
    w &&& 0xFE00707F#32 = funct7Of w ++ 0#10 ++ funct3Of w ++ 0#5 ++ opcodeOf w := by
  unfold funct7Of funct3Of opcodeOf
  apply BitVec.eq_of_getLsbD_eq
  intro i hi
  simp only [BitVec.getLsbD_and, BitVec.getLsbD_append, BitVec.getLsbD_extractLsb']
  interval_cases i <;> simp

section Matches

variable {w b : Word}

theorem matches_opcode_iff (hb : b &&& 0x0000007F#32 = b) :
    w &&& 0x0000007F#32 = b ↔ opcodeOf w = b.extractLsb' 0 7 := by
  constructor
  · exact extractLsb'_of_matches 0 7 (hfield := by decide)
  · intro hop
    rw [and_mask_opcode, hop]
    exact (and_mask_opcode b).symm.trans hb

theorem matches_opcode_funct3_iff (hb : b &&& 0x0000707F#32 = b) :
    w &&& 0x0000707F#32 = b ↔ opcodeOf w = b.extractLsb' 0 7 ∧ funct3Of w = b.extractLsb' 12 3 := by
  constructor
  · exact fun h => ⟨extractLsb'_of_matches 0 7 h (by decide), extractLsb'_of_matches 12 3 h (by decide)⟩
  · rintro ⟨hop, hf3⟩
    rw [and_mask_opcode_funct3, hop, hf3]
    exact (and_mask_opcode_funct3 b).symm.trans hb

theorem matches_opcode_funct3_funct7_iff (hb : b &&& 0xFE00707F#32 = b) :
    w &&& 0xFE00707F#32 = b ↔
      opcodeOf w = b.extractLsb' 0 7 ∧ funct3Of w = b.extractLsb' 12 3 ∧ funct7Of w = b.extractLsb' 25 7 := by
  constructor
  · exact fun h => ⟨extractLsb'_of_matches 0 7 h (by decide), extractLsb'_of_matches 12 3 h (by decide),
      extractLsb'_of_matches 25 7 h (by decide)⟩
  · rintro ⟨hop, hf3, hf7⟩
    rw [and_mask_opcode_funct3_funct7, hop, hf3, hf7]
    exact (and_mask_opcode_funct3_funct7 b).symm.trans hb

/-- The opcode is named too, so that a row of a whole word is told apart by it like the others. -/
theorem matches_whole_word_iff : w &&& 0xFFFFFFFF#32 = b ↔ opcodeOf w = b.extractLsb' 0 7 ∧ w = b := by
  have hwhole : w &&& 0xFFFFFFFF#32 = w := BitVec.and_allOnes
  rw [hwhole]
  exact ⟨fun h => ⟨h ▸ rfl, h⟩, And.right⟩

end Matches

/-! ### The invalid words (rule R77) -/

/-- The words that no row matches are those of rule R77's list. Each row is an equation of fields; under a listed
opcode only its own rows are left, and what remains is a fact of funct3 and funct7 (under SYSTEM, of two whole words);
under any other opcode no row is left. -/
theorem no_row_matches_iff_invalidEncoding (w : Word) :
    (∀ r ∈ decodeTable, w &&& r.mask ≠ r.bits) ↔ Machine.invalidEncoding w = true := by
  simp only [decodeTable, rowsRegister, rowsImmediate, rowsMulDiv, rowsMemory, rowsControl, rowsSystem, rowsFma,
    List.forall_mem_append, List.forall_mem_cons, List.not_mem_nil, matches_opcode_iff, matches_opcode_funct3_iff,
    matches_opcode_funct3_funct7_iff, matches_whole_word_iff, BitVec.reduceAnd, BitVec.reduceExtractLsb', ne_eq]
  unfold Machine.invalidEncoding
  generalize funct3Of w = f3
  generalize funct7Of w = f7
  split
  case h_8 hop => simp [hop]
  case h_16 => simp_all
  all_goals
    rename_i hop
    simp only [hop, BitVec.reduceEq, false_and, true_and, not_false_eq_true, not_true_eq_false, and_true, false_implies,
      implies_true, and_false]
  case h_1 | h_2 | h_3 | h_4 | h_5 | h_6 | h_7 => decide +revert
  case h_9 | h_10 | h_11 | h_12 | h_13 | h_14 | h_15 => decide

theorem decodeWord_eq_error_iff (w : Word) :
    decodeWord w = .error (.noMatchingRow w) ↔ Machine.invalidEncoding w = true := by
  rw [← no_row_matches_iff_invalidEncoding]
  constructor
  · exact fun h => (no_match_of_decodeWord h).2
  · intro h
    cases hd : decodeWord w with
    | error e => rw [(no_match_of_decodeWord hd).1]
    | ok i =>
      obtain ⟨r, hr, hm, -⟩ := matches_of_decodeWord hd
      exact absurd hm (h r hr)

theorem exists_decodeWord_eq_ok_iff (w : Word) :
    (∃ i, decodeWord w = .ok i) ↔ Machine.invalidEncoding w = false := by
  rw [← Bool.not_eq_true, ← decodeWord_eq_error_iff]
  cases hd : decodeWord w with
  | ok i => simp
  | error e => simp [(no_match_of_decodeWord hd).1]

/-- Settles O6: the decoder rejects exactly the listed words, and a running core that fetches one ends the step with
`raise`, which changes the outcome alone (rules R77, R301). -/
theorem invalidWordsAreExactlyTheListed : Obligations.InvalidWordsAreExactlyTheListed :=
  ⟨decodeWord_eq_error_iff, exists_decodeWord_eq_ok_iff,
    fun _ hs hw => Machine.step_of_invalid hs ((decodeWord_eq_error_iff _).mpr hw)⟩

end Sys2Proof
end

section
/-! PROOFS about the step (00_scope.md rule R9; 60_exceptions.md): which instruction it runs, which outcome it ends
with and how it leaves the pc, and that it keeps the invariant of a run. -/

namespace Sys2Proof.Machine

/-! ### The instruction a step runs (rules R9, R52) -/

/-- Settles O8: the four bytes are those of the fetched word, so both decode alike. -/
theorem stepRunsTheDecodedInstruction : Obligations.StepRunsTheDecodedInstruction := by
  intro s i hs hbytes
  refine step_of_decodeWord hs ?_
  simp only [decode, ← State.fetchWord_eq] at hbytes
  cases hd : decodeWord s.fetchWord with
  | ok j =>
    rw [hd] at hbytes
    cases hbytes
    rfl
  | error e =>
    rw [hd] at hbytes
    cases hbytes

/-- Numbering a word's bits and taking them back gives the word. -/
theorem tableWord_toNat (w : Word) : tableWord 32 w.toNat = w := by
  rw [tableWord, Nat.mod_eq_of_lt w.isLt, BitVec.ofNat_toNat, BitVec.setWidth_eq]

/-- Settles O9: the placed word is fetched, and it decodes to the instruction it encodes. -/
theorem placedInstructionIsTheOneRun : Obligations.PlacedInstructionIsTheOneRun := by
  intro s i hwf hi
  refine step_of_decodeWord rfl ?_
  rw [State.withFetchWord, tableWord_toNat, State.fetchWord_placeWord s _ hwf, decodeWord_encode hi]

/-! ### The outcome of a step (rules R300 to R304, R314) -/

/-- Settles O14: `step` looks at the outcome first. -/
theorem runEndsAtTheFirstNonRetiringOutcome : Obligations.RunEndsAtTheFirstNonRetiringOutcome :=
  fun _ => step_of_ended

theorem decodeWord_eq_ecall_iff (w : Word) : decodeWord w = .ok .ecall ↔ w = 0x00000073#32 :=
  ecallAndEbreakEndTheStepWithTheirOutcome.1 w

theorem decodeWord_eq_ebreak_iff (w : Word) : decodeWord w = .ok .ebreak ↔ w = 0x00100073#32 :=
  ecallAndEbreakEndTheStepWithTheirOutcome.2.1 w

/-- The four ways a step of a running core can end, told apart by the fetched word. -/
theorem step_ending {s : State} (hs : s.outcome = .retired) :
    (s.fetchWord = 0x00000073#32 ∧ step s = .next (s.raise (.environmentCall s.pc))) ∨
    (s.fetchWord = 0x00100073#32 ∧ step s = .next (s.raise (.breakpoint s.pc))) ∨
    (invalidEncoding s.fetchWord = true ∧ step s = .next (s.raise (.invalidInstruction s.pc s.fetchWord))) ∨
    (s.fetchWord ≠ 0x00000073#32 ∧ s.fetchWord ≠ 0x00100073#32 ∧ invalidEncoding s.fetchWord = false ∧
      ∃ t, step s = .next t ∧ t.outcome = .retired) := by
  cases hd : decodeWord s.fetchWord with
  | error e =>
    obtain rfl := (no_match_of_decodeWord hd).1
    exact .inr (.inr (.inl ⟨(decodeWord_eq_error_iff _).mp hd, step_of_invalid hs hd⟩))
  | ok i =>
    have hstep : step s = exec i s := step_of_decodeWord hs hd
    by_cases hecall : i = .ecall
    · subst hecall
      exact .inl ⟨(decodeWord_eq_ecall_iff _).mp hd, hstep⟩
    by_cases hebreak : i = .ebreak
    · subst hebreak
      exact .inr (.inl ⟨(decodeWord_eq_ebreak_iff _).mp hd, hstep⟩)
    obtain ⟨t, ht, hret⟩ := everyOtherInstructionRetires i s hecall hebreak
    refine .inr (.inr (.inr ⟨fun hw => ?_, fun hw => ?_, (exists_decodeWord_eq_ok_iff _).mp ⟨i, hd⟩, t,
      hstep.trans ht, hret⟩))
    · rw [(decodeWord_eq_ecall_iff _).mpr hw] at hd
      exact hecall (Except.ok.inj hd).symm
    · rw [(decodeWord_eq_ebreak_iff _).mpr hw] at hd
      exact hebreak (Except.ok.inj hd).symm

/-- Settles O10: each of the four endings fixes its outcome, and the words of the other three are none of its own. -/
theorem everyRunningStepEndsWithItsOutcome : Obligations.EveryRunningStepEndsWithItsOutcome := by
  intro s hs
  have hecall : invalidEncoding 0x00000073#32 = false := rfl
  have hebreak : invalidEncoding 0x00100073#32 = false := rfl
  rcases step_ending hs with ⟨hw, hstep⟩ | ⟨hw, hstep⟩ | ⟨hinv, hstep⟩ | ⟨hnecall, hnebreak, hvalid, t, hstep, hret⟩
  · exact ⟨_, hstep, by simp [hw, eq_comm], by simp [hw], by simp [hw, hecall]⟩
  · exact ⟨_, hstep, by simp [hw], by simp [hw, eq_comm], by simp [hw, hebreak]⟩
  · have hnecall : s.fetchWord ≠ 0x00000073#32 := fun hw => by rw [hw, hecall] at hinv; cases hinv
    have hnebreak : s.fetchWord ≠ 0x00100073#32 := fun hw => by rw [hw, hebreak] at hinv; cases hinv
    refine ⟨_, hstep, by simp [hnecall], by simp [hnebreak], fun p w => ?_⟩
    simp only [State.raise_outcome, StepOutcome.invalidInstruction.injEq]
    constructor
    · rintro ⟨rfl, rfl⟩
      exact ⟨rfl, rfl, hinv⟩
    · rintro ⟨rfl, rfl, -⟩
      exact ⟨rfl, rfl⟩
  · refine ⟨t, hstep, by simp [hret, hnecall], by simp [hret, hnebreak], fun p w => ?_⟩
    simp only [hret, reduceCtorEq, false_iff]
    rintro ⟨-, rfl, hinv⟩
    rw [hvalid] at hinv
    cases hinv

/-- A step that does not retire is `raise` of its outcome (rule R304). -/
theorem eq_raise_of_step {s t : State} (h : step s = .next t) (ht : t.outcome ≠ .retired) : t = s.raise t.outcome := by
  rcases step_ending (step_cases h).1 with ⟨-, hstep⟩ | ⟨-, hstep⟩ | ⟨-, hstep⟩ | ⟨-, -, -, u, hstep, hret⟩
  case inr.inr.inr =>
    obtain rfl : u = t := Host.Outcome.next.inj (hstep.symm.trans h)
    exact absurd hret ht
  all_goals
    obtain rfl := Host.Outcome.next.inj (hstep.symm.trans h)
    rfl

/-- Settles O11: `raise` changes the outcome alone. -/
theorem nonRetiringStepChangesNothing : Obligations.NonRetiringStepChangesNothing := by
  intro s t h ht
  rw [eq_raise_of_step h ht]
  exact ⟨rfl, rfl, rfl, rfl⟩

/-- Settles O15: resuming sets the outcome, which was Retired before the step, and the pc back or on by 4; the resumed
core runs what it fetches (rule R313). -/
theorem resumeContinuesAfterTheCall : Obligations.ResumeContinuesAfterTheCall := by
  intro s t h ht
  have hs : s.outcome = .retired := (step_cases h).1
  have hpc (p : Word) : t.resumeAt p = { s with pc := p } := by
    rw [eq_raise_of_step h ht, State.resumeAt, State.raise, hs]
  have htpc : t.pc = s.pc := by rw [eq_raise_of_step h ht, State.raise_pc]
  refine ⟨?_, ?_, fun i hd => step_of_decodeWord rfl hd⟩
  · rw [State.resumeAfter, hpc, htpc]
  · show t.resumeAt t.pc = s
    rw [hpc, htpc]

end Sys2Proof.Machine

/-! ### The pc after a retiring step (rule R25) -/

namespace Sys2Proof

/-- The offset of a conditional branch. -/
def Instr.branchOffset : Instr → Option Word
  | .beq _ _ imm | .bne _ _ imm | .blt _ _ imm | .bge _ _ imm | .bltu _ _ imm | .bgeu _ _ imm => some imm
  | _ => none

/-- The instruction may leave the pc elsewhere than at pc + 4: a branch or a jump. -/
def Instr.isControl (i : Instr) : Bool :=
  i.branchOffset.isSome || match i with
    | .jal _ _ | .jalr _ _ _ => true
    | _ => false

/-- What a row builds, as far as the pc goes, by the row's opcode. -/
theorem control_build (w : Word) : ∀ r ∈ decodeTable,
    (opcodeOf r.bits = 0b1100011#7 → (r.build w).branchOffset = some (immB w)) ∧
    (opcodeOf r.bits = 0b1101111#7 → r.build w = .jal (rdOf w) (immJ w)) ∧
    (opcodeOf r.bits = 0b1100111#7 → r.build w = .jalr (rdOf w) (rs1Of w) (immI w)) ∧
    (opcodeOf r.bits ≠ 0b1100011#7 → opcodeOf r.bits ≠ 0b1101111#7 → opcodeOf r.bits ≠ 0b1100111#7 →
      (r.build w).isControl = false) := by
  simp [decodeTable, rowsRegister, rowsImmediate, rowsMulDiv, rowsMemory, rowsControl, rowsSystem, rowsFma, opcodeOf,
    Instr.branchOffset, Instr.isControl]

end Sys2Proof

namespace Sys2Proof.Machine

theorem exec_pc_of_branchOffset {i : Instr} {s t : State} {imm : Word} (hi : i.branchOffset = some imm)
    (ht : exec i s = .next t) : t.pc = s.pc + 4#32 ∨ t.pc = s.pc + imm := by
  have hbranch : ∃ taken, exec i s = s.branch taken imm := by cases i <;> cases hi <;> exact ⟨_, rfl⟩
  obtain ⟨taken, hx⟩ := hbranch
  rw [hx] at ht
  cases taken with
  | true => cases ht; exact .inr rfl
  | false => cases ht; exact .inl rfl

/-- No meaning but a branch's or a jump's sets the pc elsewhere. -/
theorem exec_pc_of_not_isControl {i : Instr} {s t : State} (hi : i.isControl = false) (ht : exec i s = .next t)
    (hret : t.outcome = .retired) : t.pc = s.pc + 4#32 := by
  cases i with
  | ecall | ebreak => cases ht; cases hret
  | beq | bne | blt | bge | bltu | bgeu | jal | jalr => cases hi
  | _ => cases ht; rfl

/-- Settles O13: a retiring step ran the instruction it fetched, whose kind the opcode fixes; its meaning sets the pc.
-/
theorem retiringStepLeavesThePc : Obligations.RetiringStepLeavesThePc := by
  intro s t h hret
  obtain ⟨-, ⟨i, hd, ht⟩ | ⟨e, -, rfl⟩⟩ := step_cases h
  · obtain ⟨r, hr, hm, rfl⟩ := matches_of_decodeWord hd
    have hbuild := control_build s.fetchWord r hr
    rw [← opcodeOf_of_matches hr hm] at hbuild
    obtain ⟨hbranch, hjal, hjalr, helse⟩ := hbuild
    refine ⟨fun hop => ?_, fun hop => ?_, fun hop => ?_, fun hb hj hjr => ?_⟩
    · exact exec_pc_of_branchOffset (hbranch hop) ht
    · rw [hjal hop] at ht
      cases ht
      rfl
    · rw [hjalr hop] at ht
      cases ht
      rfl
    · exact exec_pc_of_not_isControl (helse hb hj hjr) ht hret
  · cases hret

/-! ### The invariant of a run -/

/-- A store keeps the canonical form, and no other instruction touches memory. -/
theorem exec_mem_wf {i : Instr} {s t : State} (hwf : s.mem.wf = true) (ht : exec i s = .next t) : t.mem.wf = true := by
  by_cases hi : i.isStore = true
  · cases i with
    | sb => cases ht; exact s.storeByte_wf _ _ hwf
    | sh => cases ht; exact s.storeHalf_wf _ _ hwf
    | sw => cases ht; exact s.storeWord_wf _ _ hwf
    | _ => cases hi
  · rw [exec_mem_of_not_isStore (Bool.eq_false_iff.mpr hi) ht]
    exact hwf

/-- A retiring step from an even pc leaves an even pc: 4, the B and the J immediates are even, and the mask clears bit 0
(rules R25, R65, R67, R182). -/
theorem step_pcEven {s t : State} (hpc : s.pcEven) (h : step s = .next t) (hret : t.outcome = .retired) : t.pcEven := by
  obtain ⟨hbranch, hjal, hjalr, helse⟩ := retiringStepLeavesThePc s t h hret
  have heven (imm : Word) (himm : imm.toNat % 2 = 0) (ht : t.pc = s.pc + imm) : t.pcEven := by
    unfold State.pcEven at *
    rw [ht, BitVec.toNat_add]
    omega
  have hnat (imm : Word) (himm : imm.toInt % 2 = 0) : imm.toNat % 2 = 0 := by
    have := BitVec.toInt_eq_toNat_cond imm
    split at this <;> omega
  by_cases hb : opcodeOf s.fetchWord = 0b1100011#7
  · obtain ht | ht := hbranch hb
    · exact heven _ rfl ht
    · exact heven _ (hnat _ (by rw [immB_toInt]; omega)) ht
  by_cases hj : opcodeOf s.fetchWord = 0b1101111#7
  · exact heven _ (hnat _ (by rw [immJ_toInt]; omega)) (hjal hj)
  by_cases hr : opcodeOf s.fetchWord = 0b1100111#7
  · unfold State.pcEven
    rw [hjalr hr, and_mask_bit_zero_eq_ofNat, BitVec.toNat_ofNat]
    omega
  · exact heven _ rfl (helse hb hj hr)

/-- The outcome a step reports carries the pc and the word that are still there after it. -/
theorem step_outcomeFits {s t : State} (h : step s = .next t) : t.outcomeFits := by
  rcases step_ending (step_cases h).1 with ⟨hw, hstep⟩ | ⟨hw, hstep⟩ | ⟨hinv, hstep⟩ | ⟨-, -, -, u, hstep, hret⟩
  · obtain rfl := Host.Outcome.next.inj (hstep.symm.trans h)
    exact ⟨rfl, hw⟩
  · obtain rfl := Host.Outcome.next.inj (hstep.symm.trans h)
    exact ⟨rfl, hw⟩
  · obtain rfl := Host.Outcome.next.inj (hstep.symm.trans h)
    exact ⟨rfl, rfl, hinv⟩
  · obtain rfl := Host.Outcome.next.inj (hstep.symm.trans h)
    rw [State.outcomeFits, hret]
    trivial

/-- Settles O16: the three parts, one lemma each; a step that does not retire keeps memory and pc as they are. -/
theorem stepKeepsTheInvariant : Obligations.StepKeepsTheInvariant := by
  intro s t hs h
  by_cases hret : t.outcome = .retired
  · obtain ⟨-, ⟨i, -, ht⟩ | ⟨e, -, rfl⟩⟩ := step_cases h
    · exact ⟨exec_mem_wf hs.memWf ht, step_pcEven hs.pcEven h hret, step_outcomeFits h⟩
    · cases hret
  · obtain ⟨-, -, hmem, hpc⟩ := nonRetiringStepChangesNothing s t h hret
    refine ⟨?_, ?_, step_outcomeFits h⟩
    · rw [hmem]
      exact hs.memWf
    · rw [State.pcEven, hpc]
      exact hs.pcEven

/-- Settles O17: no byte is listed, the pc is zero, and no step has ended but by retiring. -/
theorem invariantHoldsAtReset : Obligations.InvariantHoldsAtReset :=
  ⟨State.reset_mem_wf, rfl, trivial⟩

end Sys2Proof.Machine
end

section
/-! PROOFS about the two register banks (10_state.md rules R23, R26, R27): only the fused multiply-adds read or write
the floating-point one. -/

namespace Sys2Proof

/-- The instruction is one of the four fused multiply-adds. -/
def Instr.isFma : Instr → Bool
  | .fmaddS _ _ _ _ | .fmsubS _ _ _ _ | .fnmsubS _ _ _ _ | .fnmaddS _ _ _ _ => true
  | _ => false

/-- The fused multiply-adds are the rows with one of their four opcodes. -/
theorem isFma_build (w : Word) : ∀ r ∈ decodeTable, (r.build w).isFma = Machine.isFmaOpcode (opcodeOf r.bits) := by
  simp [decodeTable, rowsRegister, rowsImmediate, rowsMulDiv, rowsMemory, rowsControl, rowsSystem, rowsFma, opcodeOf,
    Instr.isFma, Machine.isFmaOpcode]

theorem isFma_of_decodeWord {w : Word} {i : Instr} (h : decodeWord w = .ok i) :
    i.isFma = Machine.isFmaOpcode (opcodeOf w) := by
  obtain ⟨r, hr, hm, rfl⟩ := matches_of_decodeWord h
  rw [isFma_build w r hr, opcodeOf_of_matches hr hm]

end Sys2Proof

namespace Sys2Proof.Machine

/-- An instruction that is no fused multiply-add leaves the floating-point bank: no such meaning updates it. -/
theorem exec_f_of_not_isFma {i : Instr} {s t : State} (hi : i.isFma = false) (ht : exec i s = .next t) : t.f = s.f := by
  cases i with
  | fmaddS | fmsubS | fnmsubS | fnmaddS => cases hi
  | _ => cases ht; rfl

/-- A fused multiply-add writes f[rd] and advances. -/
theorem exec_of_isFma {i : Instr} (hi : i.isFma = true) (s : State) :
    ∃ rd v, exec i s = .next (s.writeFloat rd v).advance := by
  cases i with
  | fmaddS | fmsubS | fnmsubS | fnmaddS => exact ⟨_, _, rfl⟩
  | _ => cases hi

/-- Settles O48: the opcode says whether the instruction run is a fused multiply-add (rules R23, R27). -/
theorem onlyFusedInstructionsTouchTheFloatBank : Obligations.OnlyFusedInstructionsTouchTheFloatBank := by
  intro s t h
  obtain ⟨-, ⟨i, hd, ht⟩ | ⟨e, -, rfl⟩⟩ := step_cases h
  · rw [← isFma_of_decodeWord hd]
    refine ⟨fun hi => exec_f_of_not_isFma hi ht, fun hi => ?_⟩
    obtain ⟨rd, v, hx⟩ := exec_of_isFma hi s
    obtain rfl := Host.Outcome.next.inj (hx.symm.trans ht)
    exact ⟨rfl, rfl⟩
  · exact ⟨fun _ => rfl, fun _ => ⟨rfl, rfl⟩⟩

/-- With another floating-point bank an instruction does the same but for that bank: the fused multiply-adds write
nothing else, and no other meaning reads it. -/
theorem exec_with_f {i : Instr} {s t : State} (g : Vector Word 32) (ht : exec i s = .next t) :
    ∃ g', exec i { s with f := g } = .next { t with f := g' } := by
  cases hi : i.isFma with
  | true =>
    obtain ⟨rd, v, hx⟩ := exec_of_isFma hi s
    obtain ⟨rd', v', hx'⟩ := exec_of_isFma hi { s with f := g }
    obtain rfl := Host.Outcome.next.inj (hx.symm.trans ht)
    exact ⟨g.set rd'.toNat v' rd'.isLt, hx'⟩
  | false =>
    refine ⟨g, ?_⟩
    cases i with
    | fmaddS | fmsubS | fnmsubS | fnmaddS => cases hi
    | _ => cases ht; rfl

/-- Settles O49: the fetch, and so the instruction run, does not depend on the floating-point bank, and `exec_with_f`
says that nothing else the step leaves does (rules R26, R27). -/
theorem floatBankIsInvisibleToTheRest : Obligations.FloatBankIsInvisibleToTheRest := by
  intro s t g h
  have hfetch : ({ s with f := g } : State).fetchWord = s.fetchWord := State.fetchWord_congr rfl rfl
  obtain ⟨hs, ⟨i, hd, ht⟩ | ⟨e, hd, rfl⟩⟩ := step_cases h
  · obtain ⟨g', hx⟩ := exec_with_f g ht
    rw [← hfetch] at hd
    exact ⟨g', (step_of_decodeWord (s := { s with f := g }) hs hd).trans hx⟩
  · rw [← hfetch] at hd
    refine ⟨g, (step_of_invalid (s := { s with f := g }) hs hd).trans ?_⟩
    rw [hfetch]
    rfl

end Sys2Proof.Machine
end

section
/-! PROOFS about memory and the session (20_memory.md; 10_state.md section 8; 70_reset_and_hazards.md section 1): the
canonical form is one list per contents, what a launch and the session's writes leave, and what is read back after a
store. -/

namespace Sys2Proof.Machine

/-! ### The canonical form (log 3) -/

theorem Memory.wfAbove_cons_iff {low : Option Nat} {a : Nat} {b : Byte} {rest : Memory} :
    Memory.wfAbove low ((a, b) :: rest) = true ↔
      (∀ l, low = some l → l < a) ∧ a < 2 ^ 32 ∧ b ≠ Config.unlistedByte ∧ Memory.wfAbove (some a) rest = true := by
  cases low <;> simp [Memory.wfAbove, and_assoc]

/-- No byte is listed up to the bound that the canonical form names. -/
theorem Memory.read_of_wfAbove_of_le {m : Memory} {l c : Nat} (hm : Memory.wfAbove (some l) m = true) (hc : c ≤ l) :
    m.read c = Config.unlistedByte := by
  induction m generalizing l with
  | nil => rfl
  | cons p rest ih =>
    obtain ⟨a, b⟩ := p
    obtain ⟨hlow, -, -, hrest⟩ := Memory.wfAbove_cons_iff.mp hm
    have hla : l < a := hlow l rfl
    rw [Memory.read, if_neg (by omega)]
    exact ih hrest (by omega)

/-- No byte is listed below the first one. -/
theorem Memory.read_of_lt_head {low : Option Nat} {a c : Nat} {b : Byte} {rest : Memory}
    (hm : Memory.wfAbove low ((a, b) :: rest) = true) (hc : c < a) :
    Memory.read ((a, b) :: rest) c = Config.unlistedByte := by
  obtain ⟨-, -, -, hrest⟩ := Memory.wfAbove_cons_iff.mp hm
  rw [Memory.read, if_neg (by omega)]
  exact Memory.read_of_wfAbove_of_le hrest (by omega)

/-- A listed byte does not read as an unlisted one. -/
theorem Memory.read_head_ne {low : Option Nat} {a : Nat} {b : Byte} {rest : Memory}
    (hm : Memory.wfAbove low ((a, b) :: rest) = true) :
    Memory.read ((a, b) :: rest) a ≠ Config.unlistedByte := by
  obtain ⟨-, -, hb, -⟩ := Memory.wfAbove_cons_iff.mp hm
  rwa [Memory.read, if_pos rfl]

/-- Two canonical lists that read alike have the same first entry, for each reads as unlisted below its own, and so the
same rest. -/
theorem Memory.eq_of_read_eq {low : Option Nat} {m n : Memory} (hm : Memory.wfAbove low m = true)
    (hn : Memory.wfAbove low n = true) (h : ∀ c < 2 ^ 32, m.read c = n.read c) : m = n := by
  induction m generalizing low n with
  | nil =>
    cases n with
    | nil => rfl
    | cons q rest' =>
      obtain ⟨a', b'⟩ := q
      obtain ⟨-, ha', -, -⟩ := Memory.wfAbove_cons_iff.mp hn
      exact absurd (h a' ha').symm (Memory.read_head_ne hn)
  | cons p rest ih =>
    obtain ⟨a, b⟩ := p
    obtain ⟨-, ha, -, hrest⟩ := Memory.wfAbove_cons_iff.mp hm
    cases n with
    | nil => exact absurd (h a ha) (Memory.read_head_ne hm)
    | cons q rest' =>
      obtain ⟨a', b'⟩ := q
      obtain ⟨-, ha', -, hrest'⟩ := Memory.wfAbove_cons_iff.mp hn
      have haa' : a = a' := by
        rcases lt_trichotomy a a' with hlt | heq | hgt
        · exact absurd ((h a ha).trans (Memory.read_of_lt_head hn hlt)) (Memory.read_head_ne hm)
        · exact heq
        · exact absurd ((h a' ha').symm.trans (Memory.read_of_lt_head hm hgt)) (Memory.read_head_ne hn)
      subst haa'
      have hbb' : b = b' := by simpa [Memory.read] using h a ha
      subst hbb'
      refine congrArg _ (ih hrest hrest' fun c hc => ?_)
      by_cases hca : c ≤ a
      · rw [Memory.read_of_wfAbove_of_le hrest hca, Memory.read_of_wfAbove_of_le hrest' hca]
      · have hac : a ≠ c := by omega
        simpa [Memory.read, hac] using h c hc

/-- Settles O20: every address below 2^32 is some word's number. -/
theorem canonicalMemoriesReadingAlikeAreEqual : Obligations.CanonicalMemoriesReadingAlikeAreEqual := by
  intro m n hm hn h
  refine Memory.eq_of_read_eq hm hn fun c hc => ?_
  have := h (BitVec.ofNat 32 c)
  rwa [BitVec.toNat_ofNat, Nat.mod_eq_of_lt hc] at this

/-! ### The session (10_state.md rules R32, R33; 20_memory.md rule R58) -/

theorem State.sessionWrite_wf (s : State) (write : SessionWrite) (hwf : s.mem.wf = true) :
    (s.sessionWrite write).mem.wf = true := by
  cases write with
  | byte a v => exact s.setByte_wf a v hwf
  | int | float | pc => exact hwf

theorem State.sessionAct_wf (s : State) (writes : List SessionWrite) (hwf : s.mem.wf = true) :
    (s.sessionAct writes).mem.wf = true := by
  induction writes generalizing s with
  | nil => exact hwf
  | cons write rest ih => exact ih _ (s.sessionWrite_wf write hwf)

/-- Settles O19: each write keeps the canonical form, and x0 reads zero in every state. -/
theorem sessionWritesKeepMemoryCanonical : Obligations.SessionWritesKeepMemoryCanonical :=
  fun s writes hwf => ⟨s.sessionAct_wf writes hwf, State.readInt_zero _⟩

theorem Memory.load_wf (m : Memory) (bytes : List (Word × Byte)) (hm : m.wf = true) : (m.load bytes).wf = true := by
  induction bytes generalizing m with
  | nil => exact hm
  | cons e rest ih => exact ih _ (Memory.wf_write m _ e.1.isLt e.2 hm)

/-- After a load each byte is the last one loaded at its address, else the byte that was there. -/
theorem Memory.read_load (m : Memory) (bytes : List (Word × Byte)) (a : Word) (hm : m.wf = true) :
    (m.load bytes).read a.toNat =
      ((bytes.reverse.find? fun e => e.1 == a).map Prod.snd).getD (m.read a.toNat) := by
  induction bytes generalizing m with
  | nil => rfl
  | cons e rest ih =>
    obtain ⟨c, v⟩ := e
    rw [Memory.load, ih _ (Memory.wf_write m _ c.isLt v hm), Memory.read_write m _ v _ hm, List.reverse_cons,
      List.find?_append]
    cases rest.reverse.find? fun e => e.1 == a with
    | some e => rfl
    | none =>
      by_cases hca : c = a
      · simp [hca]
      · have hne : a.toNat ≠ c.toNat := fun h => hca (BitVec.eq_of_toNat_eq h.symm)
        simp [hca, hne]

/-- x(k+1) is slot k. -/
theorem State.readInt_ofNat_succ (s : State) (k : Nat) (hk : k < 31) : s.readInt (BitVec.ofNat 5 (k + 1)) = s.x[k] := by
  have hnat : (BitVec.ofNat 5 (k + 1)).toNat = k + 1 := by rw [BitVec.toNat_ofNat]; omega
  have hne : BitVec.ofNat 5 (k + 1) ≠ 0#5 := fun h => by rw [h] at hnat; cases hnat
  simp only [State.readInt, if_neg hne, hnat, Nat.add_sub_cancel]

theorem State.readFloat_ofNat (s : State) (k : Nat) (hk : k < 32) : s.readFloat (BitVec.ofNat 5 k) = s.f[k] := by
  have hnat : (BitVec.ofNat 5 k).toNat = k := by rw [BitVec.toNat_ofNat]; omega
  simp only [State.readFloat, hnat]

/-- Settles O18: `State.launch` holds the parameters in its fields, and its memory is loaded into the empty one. -/
theorem launchLeavesWhatTheSessionSupplied : Obligations.LaunchLeavesWhatTheSessionSupplied := by
  intro l
  refine ⟨rfl, ?_, ?_, rfl, rfl, ?_, ?_⟩
  · exact State.readInt_ofNat_succ (State.launch l)
  · exact State.readFloat_ofNat (State.launch l)
  · exact fun a => Memory.read_load [] l.memInit a rfl
  · exact fun heven => ⟨Memory.load_wf [] l.memInit rfl, heven, trivial⟩

/-! ### What is read after a store (rules R42 to R47, R56) -/

/-- Settles O29: the bytes of a store are at the listed addresses, and it changes no register. -/
theorem storesLeaveAllOtherBytes : Obligations.StoresLeaveAllOtherBytes := by
  refine fun s t rs1 rs2 imm => ⟨fun ht => ?_, fun ht => ?_, fun ht => ?_⟩
  · obtain rfl : (s.storeByte _ _).advance = t := Host.Outcome.next.inj ht
    refine ⟨by simp, by simp, fun a ha => ?_⟩
    simp only [List.mem_cons, List.not_mem_nil, or_false] at ha
    rw [State.byteAt_advance, s.byteAt_storeByte_of_ne _ _ a ha]
  · obtain rfl : (s.storeHalf _ _).advance = t := Host.Outcome.next.inj ht
    refine ⟨by simp, by simp, fun a ha => ?_⟩
    simp only [List.mem_cons, List.not_mem_nil, or_false, not_or] at ha
    obtain ⟨h0, h1⟩ := ha
    rw [State.byteAt_advance, s.byteAt_storeHalf_of_ne _ _ a h0 h1]
  · obtain rfl : (s.storeWord _ _).advance = t := Host.Outcome.next.inj ht
    refine ⟨by simp, by simp, fun a ha => ?_⟩
    simp only [List.mem_cons, List.not_mem_nil, or_false, not_or] at ha
    obtain ⟨h0, h1, h2, h3⟩ := ha
    rw [State.byteAt_advance, s.byteAt_storeWord_of_ne _ _ a h0 h1 h2 h3]

section AfterStoreWord

variable (s : State) (a v : Word) (hwf : s.mem.wf = true)
include hwf

/-- Byte k of a stored word is its bits 8k+7:8k (rule R44). -/
theorem State.byteAt_storeWord {k : Nat} (hk : k < 4) :
    (s.storeWord a v).byteAt (a + BitVec.ofNat 32 k) = v.extractLsb' (8 * k) 8 := by
  rw [State.storeWord_eq_setBytes]
  refine s.byteAt_setBytes_getElem a _ hwf (by simp) ?_
  interval_cases k <;> rfl

theorem State.byteAt_storeWord_toNat {k : Nat} (hk : k < 4) :
    ((s.storeWord a v).byteAt (a + BitVec.ofNat 32 k)).toNat = v.toNat / 2 ^ (8 * k) % 2 ^ 8 := by
  rw [s.byteAt_storeWord a v hwf hk, BitVec.extractLsb'_toNat, Nat.shiftRight_eq_div_pow]

/-- The halfword at byte k of a stored word is its bits 8k+15:8k. -/
theorem State.memRead2_storeWord_toNat {k : Nat} (hk : k < 3) :
    ((s.storeWord a v).memRead2 (a + BitVec.ofNat 32 k)).toNat = v.toNat / 2 ^ (8 * k) % 2 ^ 16 := by
  have hnext : a + BitVec.ofNat 32 k + 1#32 = a + BitVec.ofNat 32 (k + 1) := by rw [BitVec.ofNat_add, BitVec.add_assoc]
  have hdiv : v.toNat / 2 ^ (8 * (k + 1)) = v.toNat / 2 ^ (8 * k) / 2 ^ 8 := by
    rw [Nat.div_div_eq_div_mul, ← pow_add, Nat.mul_succ]
  rw [State.memRead2_toNat, hnext, s.byteAt_storeWord_toNat a v hwf (by omega),
    s.byteAt_storeWord_toNat a v hwf (by omega), hdiv]
  omega

theorem State.loadByteUnsigned_storeWord {k : Nat} (hk : k < 4) :
    (s.storeWord a v).loadByteUnsigned (a + BitVec.ofNat 32 k) =
      BitVec.ofNat 32 (v.toNat / 2 ^ (8 * k) % 2 ^ 8) := by
  rw [← s.byteAt_storeWord_toNat a v hwf hk, BitVec.ofNat_toNat]
  rfl

theorem State.loadHalfUnsigned_storeWord {k : Nat} (hk : k < 3) :
    (s.storeWord a v).loadHalfUnsigned (a + BitVec.ofNat 32 k) =
      BitVec.ofNat 32 (v.toNat / 2 ^ (8 * k) % 2 ^ 16) := by
  rw [← s.memRead2_storeWord_toNat a v hwf hk, BitVec.ofNat_toNat]
  rfl

/-- The upper halfword, sign-extended, is the word divided by 2^16, rounded down. -/
theorem State.loadHalf_storeWord_upper :
    (s.storeWord a v).loadHalf (a + 2#32) = BitVec.ofInt 32 (v.toInt / 2 ^ 16) := by
  have hhalf := s.memRead2_storeWord_toNat a v hwf (k := 2) (by decide)
  have hv := v.isLt
  rw [State.loadHalf, signExtend_eq_ofInt, hhalf, BitVec.toInt_eq_toNat_cond]
  congr 1
  split <;> split <;> omega

/-- The top byte, sign-extended, is the word divided by 2^24, rounded down. -/
theorem State.loadByte_storeWord_top : (s.storeWord a v).loadByte (a + 3#32) = BitVec.ofInt 32 (v.toInt / 2 ^ 24) := by
  have hbyte := s.byteAt_storeWord_toNat a v hwf (k := 3) (by decide)
  have hv := v.isLt
  rw [State.loadByte, State.memRead1, signExtend_eq_ofInt, hbyte, BitVec.toInt_eq_toNat_cond]
  congr 1
  split <;> split <;> omega

end AfterStoreWord

/-- Settles O30: the word is the law of Laws/Memory; the halves and the bytes are the lemmas above at each offset. -/
theorem wordStoreIsReadBackAtEveryWidth : Obligations.WordStoreIsReadBackAtEveryWidth := by
  intro s a v hwf
  have hbyte {k : Nat} (hk : k < 4) := s.loadByteUnsigned_storeWord a v hwf hk
  have hhalf {k : Nat} (hk : k < 3) := s.loadHalfUnsigned_storeWord a v hwf hk
  refine ⟨s.memRead4_memWrite4 a v hwf, ?_, s.loadHalf_storeWord_upper a v hwf, hhalf (k := 1) (by decide), ?_,
    hbyte (k := 1) (by decide), hbyte (k := 2) (by decide), s.loadByte_storeWord_top a v hwf⟩
  · simpa using hhalf (k := 0) (by decide)
  · simpa using hbyte (k := 0) (by decide)

/-- Settles O31: the fetch at pc + 4 reads the word just stored there (rule R56). -/
theorem storedWordIsFetchedNext : Obligations.StoredWordIsFetchedNext := by
  intro s rs1 rs2 imm hwf hea
  have hfetch : (s.storeWord (s.effectiveAddress rs1 imm) (s.readInt rs2)).advance.fetchWord = s.readInt rs2 := by
    rw [hea]
    exact s.memRead4_memWrite4 (s.pc + 4#32) (s.readInt rs2) hwf
  refine ⟨_, rfl, hfetch, fun i hd => step_of_decodeWord rfl ?_⟩
  rw [hfetch]
  exact hd

/-- Settles O51: the byte addresses are sums modulo 2^32 (rules R46, R53). -/
theorem accessesWrapAtTheTopOfMemory : Obligations.AccessesWrapAtTheTopOfMemory := by
  refine fun s => ⟨rfl, rfl, fun hpc => ?_, fun v hwf => ?_⟩
  · rw [State.fetchWord, hpc]
    rfl
  · have hbyte {k : Nat} (hk : k < 4) := s.byteAt_storeWord 0xFFFFFFFE#32 v hwf hk
    exact ⟨hbyte (k := 0) (by decide), hbyte (k := 1) (by decide), hbyte (k := 2) (by decide),
      hbyte (k := 3) (by decide)⟩

end Sys2Proof.Machine
end

section
/-! PROOFS of two laws of arithmetic (41_muldiv.md): the low half of a product does not depend on signedness, and
quotient and remainder obey the division law. -/

namespace Sys2Proof.Machine

/-! ### The low half of a product (rule R140): each reading of a word is the word, modulo 2^32 -/

theorem ofInt_toNat (a : Word) : BitVec.ofInt 32 a.toNat = a := by
  rw [BitVec.ofInt_natCast, BitVec.ofNat_toNat, BitVec.setWidth_eq]

/-- Settles O24: `mul` completes with the unsigned product modulo 2^32, where products of any readings agree. -/
theorem lowHalfOfTheProductIsSignIndependent : Obligations.LowHalfOfTheProductIsSignIndependent := by
  refine fun s rd rs1 rs2 => ⟨completesInt_of_finishInt rfl ?_, completesInt_of_finishInt rfl ?_⟩
  · rw [productLow_eq_ofInt, BitVec.ofInt_mul, BitVec.ofInt_mul, ofInt_toNat, ofInt_toNat, BitVec.ofInt_toInt,
      BitVec.ofInt_toInt]
  · rw [productLow_eq_ofInt, BitVec.ofInt_mul, BitVec.ofInt_mul, ofInt_toNat, ofInt_toNat, BitVec.ofInt_toInt]

/-! ### The division law (rule R139) -/

section Signed

variable {a b : Word} (hb : b ≠ 0#32) (hover : ¬ (a = 0x80000000#32 ∧ b = 0xFFFFFFFF#32))
include hb hover

/-- Outside the overflow the truncated quotient fits in 32 bits. -/
theorem quotientSigned_toInt : (quotientSigned a b).toInt = a.toInt.tdiv b.toInt := by
  have hfits : (a.sdiv b).toInt = a.toInt.tdiv b.toInt :=
    BitVec.toInt_sdiv_of_ne_or_ne a b (not_and_or.mp hover)
  rw [quotientSigned, if_neg hb, if_neg hover, ← hfits, BitVec.ofInt_toInt]

theorem remainderSigned_toInt : (remainderSigned a b).toInt = a.toInt.tmod b.toInt := by
  have hfits : (a.srem b).toInt = a.toInt.tmod b.toInt := BitVec.toInt_srem a b
  rw [remainderSigned, if_neg hb, if_neg hover, mul_comm (Int.tdiv _ _), ← Int.tmod_def, ← hfits, BitVec.ofInt_toInt]

end Signed

theorem quotientUnsigned_toNat {a b : Word} (hb : b ≠ 0#32) : (quotientUnsigned a b).toNat = a.toNat / b.toNat := by
  have hlt : a.toNat / b.toNat < 2 ^ 32 := lt_of_le_of_lt (Nat.div_le_self _ _) a.isLt
  rw [quotientUnsigned, if_neg hb, BitVec.toNat_ofNat, Nat.mod_eq_of_lt hlt]

theorem remainderUnsigned_toNat {a b : Word} (hb : b ≠ 0#32) : (remainderUnsigned a b).toNat = a.toNat % b.toNat := by
  have hlt : a.toNat % b.toNat < 2 ^ 32 := lt_of_le_of_lt (Nat.mod_le _ _) a.isLt
  rw [remainderUnsigned, if_neg hb, BitVec.toNat_ofNat, Nat.mod_eq_of_lt hlt]

/-- Settles O26: the four results are the truncated and the natural quotients and remainders, whose laws are the
library's. -/
theorem quotientAndRemainderObeyTheDivisionLaw : Obligations.QuotientAndRemainderObeyTheDivisionLaw := by
  intro a b hb
  have hbInt : b.toInt ≠ 0 := fun h => hb (BitVec.eq_of_toInt_eq h)
  have hbNat : 0 < b.toNat := Nat.pos_of_ne_zero fun h => hb (BitVec.eq_of_toNat_eq h)
  rw [quotientUnsigned_toNat hb, remainderUnsigned_toNat hb]
  refine ⟨fun hover => ?_, (Nat.div_add_mod' _ _).symm, Nat.mod_lt _ hbNat⟩
  rw [quotientSigned_toInt hb hover, remainderSigned_toInt hb hover]
  refine ⟨(Int.tdiv_mul_add_tmod _ _).symm, ?_, fun hne => ?_⟩
  · rw [Int.natAbs_tmod]
    exact Nat.mod_lt _ (Int.natAbs_pos.mpr hbInt)
  · rw [Int.sign_tmod, if_neg fun hdvd => hne (Int.tmod_eq_zero_of_dvd hdvd)]

end Sys2Proof.Machine
end

section
/-! PROOFS about binary32 patterns (48_fp_fma.md section 1): the fields as parts of the magnitude bits, the classes, and
negation. -/

namespace Sys2Proof.Machine

/-! ### Sign, and the 31 bits below it (rule R210) -/

/-- Bits 30:0, exponent and fraction, as one number: patterns of one sign are ordered by it as their values are. -/
def magnitudeBits (v : Word) : Nat := v.toNat % 2 ^ 31

theorem exponentOf_eq (v : Word) : exponentOf v = magnitudeBits v / 2 ^ 23 := by
  rw [exponentOf, magnitudeBits, BitVec.extractLsb'_toNat, Nat.shiftRight_eq_div_pow]
  omega

theorem fractionOf_eq (v : Word) : fractionOf v = magnitudeBits v % 2 ^ 23 := by
  rw [fractionOf, magnitudeBits, BitVec.extractLsb'_toNat, Nat.shiftRight_zero]
  omega

theorem signOf_eq (v : Word) : signOf v = decide (2 ^ 31 ≤ v.toNat) := by
  have hv := v.isLt
  rw [signOf, BitVec.getLsbD, Nat.testBit_eq_decide_div_mod_eq]
  apply decide_eq_decide.mpr
  omega

/-- A pattern is its sign and its magnitude bits. -/
theorem toNat_eq_sign_add_magnitudeBits (v : Word) :
    v.toNat = (if signOf v then 2 ^ 31 else 0) + magnitudeBits v := by
  have hv := v.isLt
  rw [signOf_eq, magnitudeBits]
  simp only [decide_eq_true_eq]
  split <;> omega

theorem eq_of_sign_of_magnitudeBits {u v : Word} (hs : signOf u = signOf v) (hm : magnitudeBits u = magnitudeBits v) :
    u = v := by
  apply BitVec.eq_of_toNat_eq
  rw [toNat_eq_sign_add_magnitudeBits u, toNat_eq_sign_add_magnitudeBits v, hs, hm]

theorem getLsbD_zero_eq (v : Word) : v.getLsbD 0 = decide (magnitudeBits v % 2 = 1) := by
  rw [BitVec.getLsbD, Nat.testBit_zero, magnitudeBits]
  apply decide_eq_decide.mpr
  omega

/-! ### The classes by magnitude bits -/

theorem isNaN_iff (v : Word) : isNaN v = true ↔ 0x7F800000 < magnitudeBits v := by
  have hlt : magnitudeBits v < 2 ^ 31 := Nat.mod_lt _ (by decide)
  simp only [isNaN, exponentOf_eq, fractionOf_eq, Bool.and_eq_true, beq_iff_eq, bne_iff_ne]
  omega

theorem isInfinity_iff (v : Word) : isInfinity v = true ↔ magnitudeBits v = 0x7F800000 := by
  simp only [isInfinity, exponentOf_eq, fractionOf_eq, Bool.and_eq_true, beq_iff_eq]
  omega

theorem isFinite_iff (v : Word) : isFinite v = true ↔ magnitudeBits v < 0x7F800000 := by
  have hlt : magnitudeBits v < 2 ^ 31 := Nat.mod_lt _ (by decide)
  simp only [isFinite, exponentOf_eq, bne_iff_ne]
  omega

/-- A pattern that is no NaN and no infinity is finite. -/
theorem isFinite_of_not {v : Word} (hnan : isNaN v = false) (hinf : isInfinity v = false) : isFinite v = true := by
  rw [← Bool.not_eq_true, isNaN_iff] at hnan
  rw [← Bool.not_eq_true, isInfinity_iff] at hinf
  rw [isFinite_iff]
  omega

/-! ### The value (rule R210) -/

theorem valueUnits_eq (v : Word) : valueUnits v = (if signOf v then -1 else 1) * (magnitudeUnits v : Int) := by
  rw [valueUnits]
  split
  · rw [neg_one_mul]
  · rw [one_mul]

theorem magnitudeUnits_eq_zero_iff (v : Word) : magnitudeUnits v = 0 ↔ isZero v = true := by
  simp only [magnitudeUnits, isZero, Bool.and_eq_true, beq_iff_eq]
  split
  case isTrue he => simp [he]
  case isFalse he => simp [he]

theorem valueUnits_eq_zero_iff (v : Word) : valueUnits v = 0 ↔ isZero v = true := by
  rw [← magnitudeUnits_eq_zero_iff, valueUnits]
  split <;> simp

theorem valueUnits_of_exponent_zero {v : Word} (he : exponentOf v = 0) :
    valueUnits v = (if signOf v then -1 else 1) * (fractionOf v : Int) := by
  rw [valueUnits_eq, magnitudeUnits, if_pos he]

/-- The value is (2^23 + m) * 2^(e-1); both sides are taken times 2^150 to write the exponent without a subtraction. -/
theorem valueUnits_of_one_le_exponent {v : Word} (he : 1 ≤ exponentOf v) :
    valueUnits v * 2 ^ 150 =
      (if signOf v then -1 else 1) * (2 ^ 23 + (fractionOf v : Int)) * 2 ^ exponentOf v * 2 ^ 149 := by
  obtain ⟨k, hk⟩ := Nat.exists_eq_add_of_le he
  rw [valueUnits_eq, magnitudeUnits, if_neg (Nat.one_le_iff_ne_zero.mp he), hk, Nat.add_sub_cancel_left]
  push_cast
  ring

/-- Settles O46: the class is the branch of `classOf` that exponent and fraction select, the value is that of the two
lemmas above, and the landmarks compute. -/
theorem patternsHaveTheirClassAndValue : Obligations.PatternsHaveTheirClassAndValue := by
  refine ⟨fun v => ⟨fun he hm => ⟨?_, ?_⟩, fun he hm => ⟨?_, ?_⟩, fun hlow hhigh => ⟨?_, ?_⟩, fun he hm => ?_,
    fun he hm => ?_⟩, by decide +kernel⟩
  · exact (if_pos he).trans (if_pos hm)
  · exact (valueUnits_eq_zero_iff v).mpr (by rw [isZero, exponentOf, fractionOf, he, hm]; rfl)
  · exact (if_pos he).trans (if_neg hm)
  · exact valueUnits_of_exponent_zero he
  · exact (if_neg (Nat.one_le_iff_ne_zero.mp hlow)).trans (if_neg (ne_of_lt (Nat.lt_succ_of_le hhigh)))
  · exact valueUnits_of_one_le_exponent hlow
  · exact (if_neg (by rw [exponentOf, he]; decide)).trans ((if_pos he).trans (if_pos hm))
  · exact (if_neg (by rw [exponentOf, he]; decide)).trans ((if_pos he).trans (if_neg hm))

/-! ### Negation (rule R213): the mask is one at the sign bit and zero in every other field -/

@[simp] theorem signOf_fneg (v : Word) : signOf (fneg v) = !signOf v := by
  simp [signOf, fneg]

@[simp] theorem exponentOf_fneg (v : Word) : exponentOf (fneg v) = exponentOf v := by
  simp [exponentOf, fneg, BitVec.extractLsb'_xor]

@[simp] theorem fractionOf_fneg (v : Word) : fractionOf (fneg v) = fractionOf v := by
  simp [fractionOf, fneg, BitVec.extractLsb'_xor]

theorem getLsbD_fneg (v : Word) {i : Nat} (hi : i < 31) : (fneg v).getLsbD i = v.getLsbD i := by
  have hmask : (0x80000000#32).getLsbD i = false := by interval_cases i <;> rfl
  rw [fneg, BitVec.getLsbD_xor, hmask, Bool.xor_false]

@[simp] theorem isNaN_fneg (v : Word) : isNaN (fneg v) = isNaN v := by simp [isNaN]

@[simp] theorem isInfinity_fneg (v : Word) : isInfinity (fneg v) = isInfinity v := by simp [isInfinity]

@[simp] theorem isZero_fneg (v : Word) : isZero (fneg v) = isZero v := by simp [isZero]

@[simp] theorem classOf_fneg (v : Word) : classOf (fneg v) = classOf v := by
  simp only [classOf, exponentOf_fneg, fractionOf_fneg, getLsbD_fneg v (show 22 < 31 by decide)]

@[simp] theorem valueUnits_fneg (v : Word) : valueUnits (fneg v) = -valueUnits v := by
  simp only [valueUnits, magnitudeUnits, signOf_fneg, exponentOf_fneg, fractionOf_fneg]
  cases signOf v <;> simp

theorem fneg_fneg (v : Word) : fneg (fneg v) = v := by
  rw [fneg, fneg, BitVec.xor_assoc, BitVec.xor_self, BitVec.xor_zero]

/-- Settles O45: one lemma per clause. -/
theorem negationIsExactForEveryClass : Obligations.NegationIsExactForEveryClass := fun v =>
  ⟨signOf_fneg v, fun _ => getLsbD_fneg v, classOf_fneg v, fun _ => valueUnits_fneg v, fneg_fneg v⟩

end Sys2Proof.Machine
end

section
/-! PROOFS about rounding (48_fp_fma.md section 2): a finite magnitude is a significand times a power of two, `round32`
divides by the power that leaves 24 significant bits, and the nearest multiple of it is the nearest finite pattern. -/

namespace Sys2Proof.Machine

/-! ### A finite magnitude as significand and scale (rule R210) -/

/-- The exponent of two, counted in 2^-149: 0 for zero and subnormal patterns, e - 1 for normal ones. -/
def scaleOf (v : Word) : Nat := exponentOf v - 1

/-- The integer that the power of two multiplies: the fraction, with the leading one of a normal pattern. -/
def significandOf (v : Word) : Nat := if exponentOf v = 0 then fractionOf v else 2 ^ 23 + fractionOf v

theorem magnitudeUnits_eq (v : Word) : magnitudeUnits v = significandOf v * 2 ^ scaleOf v := by
  rw [magnitudeUnits, significandOf, scaleOf]
  split
  case isTrue he => rw [he, Nat.zero_sub, pow_zero, mul_one]
  case isFalse => rfl

theorem significandOf_lt (v : Word) : significandOf v < 2 ^ 24 := by
  rw [significandOf, fractionOf_eq]
  split <;> omega

/-- Only at the lowest scale is the leading bit missing. -/
theorem scaleOf_eq_zero_or (v : Word) : scaleOf v = 0 ∨ 2 ^ 23 ≤ significandOf v := by
  rw [scaleOf, significandOf]
  split <;> omega

theorem magnitudeBits_eq (v : Word) : magnitudeBits v = scaleOf v * 2 ^ 23 + significandOf v := by
  rw [scaleOf, significandOf, exponentOf_eq, fractionOf_eq]
  split <;> omega

/-- Packing a significand with its scale gives the magnitude it stands for; a significand of 2^24 carries into the
exponent and stands for the same (rule R215). -/
theorem magnitudeUnits_of_packed {v : Word} {scale sig : Nat} (h : magnitudeBits v = scale * 2 ^ 23 + sig)
    (hsig : sig ≤ 2 ^ 24) (hscale : scale = 0 ∨ 2 ^ 23 ≤ sig) : magnitudeUnits v = sig * 2 ^ scale := by
  rw [magnitudeUnits, exponentOf_eq, fractionOf_eq, h]
  rcases lt_or_ge sig (2 ^ 23) with hlow | hhigh
  · obtain rfl : scale = 0 := by omega
    rw [if_pos (by omega), pow_zero]
    omega
  · rcases Nat.lt_or_eq_of_le hsig with hlt | rfl
    · have hexp : (scale * 2 ^ 23 + sig) / 2 ^ 23 = scale + 1 := by omega
      rw [hexp, if_neg (Nat.succ_ne_zero scale), Nat.add_sub_cancel]
      congr 1
      omega
    · have hexp : (scale * 2 ^ 23 + 2 ^ 24) / 2 ^ 23 = scale + 2 := by omega
      have hfrac : (scale * 2 ^ 23 + 2 ^ 24) % 2 ^ 23 = 0 := by omega
      rw [hexp, hfrac, if_neg (Nat.succ_ne_zero (scale + 1))]
      show (2 ^ 23 + 0) * 2 ^ (scale + 1) = 2 ^ 24 * 2 ^ scale
      ring

/-- Significand and scale of a magnitude that is not zero are determined by it: of two scales, the lower one would need
a significand of 2^24 or more. -/
theorem scale_le_of_magnitude_eq {m m' s s' : Nat} (hm : m < 2 ^ 24) (hm' : s' = 0 ∨ 2 ^ 23 ≤ m')
    (h : m * 2 ^ s = m' * 2 ^ s') : s' ≤ s := by
  by_contra hlt
  obtain ⟨d, rfl⟩ : ∃ d, s' = s + 1 + d := ⟨s' - (s + 1), by omega⟩
  have hbig : 2 ^ 23 ≤ m' := by omega
  have hcancel : m = m' * 2 * 2 ^ d := by
    apply Nat.eq_of_mul_eq_mul_right (Nat.two_pow_pos s)
    rw [h]
    ring
  have hgrow : m' * 2 * 1 ≤ m' * 2 * 2 ^ d := Nat.mul_le_mul_left _ Nat.one_le_two_pow
  omega

theorem magnitudeBits_eq_of_magnitudeUnits_eq {u v : Word} (h : magnitudeUnits u = magnitudeUnits v) :
    magnitudeBits u = magnitudeBits v := by
  rw [magnitudeUnits_eq, magnitudeUnits_eq] at h
  have hscale : scaleOf u = scaleOf v :=
    le_antisymm (scale_le_of_magnitude_eq (significandOf_lt v) (scaleOf_eq_zero_or u) h.symm)
      (scale_le_of_magnitude_eq (significandOf_lt u) (scaleOf_eq_zero_or v) h)
  rw [hscale] at h
  rw [magnitudeBits_eq, magnitudeBits_eq, hscale, Nat.eq_of_mul_eq_mul_right (Nat.two_pow_pos _) h]

theorem natAbs_valueUnits (v : Word) : (valueUnits v).natAbs = magnitudeUnits v := by
  rw [valueUnits]
  split
  · rw [Int.natAbs_neg, Int.natAbs_natCast]
  · rw [Int.natAbs_natCast]

/-- Away from zero the value's sign is the pattern's. -/
theorem signOf_eq_of_valueUnits_ne_zero {v : Word} (hne : valueUnits v ≠ 0) : signOf v = decide (valueUnits v < 0) := by
  have hmag : magnitudeUnits v ≠ 0 := by rwa [← natAbs_valueUnits, Int.natAbs_ne_zero]
  rw [valueUnits]
  cases signOf v with
  | true => exact (decide_eq_true (by rw [if_pos rfl]; omega)).symm
  | false => exact (decide_eq_false (by rw [if_neg Bool.false_ne_true]; omega)).symm

/-- Two patterns of one value that is not zero are the same pattern. -/
theorem eq_of_valueUnits_eq {u v : Word} (h : valueUnits u = valueUnits v) (hne : valueUnits u ≠ 0) : u = v := by
  apply eq_of_sign_of_magnitudeBits
  · rw [signOf_eq_of_valueUnits_ne_zero hne, signOf_eq_of_valueUnits_ne_zero (h ▸ hne), h]
  · apply magnitudeBits_eq_of_magnitudeUnits_eq
    rw [← natAbs_valueUnits, ← natAbs_valueUnits, h]

/-! ### The nearest multiple of a power of two (rule R215) -/

/-- The quotient is within half a unit, and even where it is half a unit away. -/
theorem divideToNearestEven_spec (n k : Nat) :
    2 * (divideToNearestEven n k * 2 ^ k) ≤ 2 * n + 2 ^ k ∧ 2 * n ≤ 2 * (divideToNearestEven n k * 2 ^ k) + 2 ^ k ∧
    (2 * (divideToNearestEven n k * 2 ^ k) = 2 * n + 2 ^ k ∨ 2 * n = 2 * (divideToNearestEven n k * 2 ^ k) + 2 ^ k →
      divideToNearestEven n k % 2 = 0) := by
  have hsplit : n / 2 ^ k * 2 ^ k + n % 2 ^ k = n := Nat.div_add_mod' n _
  have hrest : n % 2 ^ k < 2 ^ k := Nat.mod_lt n (Nat.two_pow_pos k)
  have hdef : divideToNearestEven n k =
      if 2 * (n % 2 ^ k) > 2 ^ k ∨ (2 * (n % 2 ^ k) = 2 ^ k ∧ n / 2 ^ k % 2 = 1) then n / 2 ^ k + 1
      else n / 2 ^ k := rfl
  have hsucc : (n / 2 ^ k + 1) * 2 ^ k = n / 2 ^ k * 2 ^ k + 2 ^ k := Nat.succ_mul _ _
  rw [hdef]
  split
  · rw [hsucc]
    omega
  · omega

/-- No multiple is nearer, and another one as near is odd, the quotient then being even. -/
theorem divideToNearestEven_nearest (n k j : Nat) :
    ((divideToNearestEven n k * 2 ^ k : Nat) - n : Int).natAbs ≤ ((j * 2 ^ k : Nat) - n : Int).natAbs ∧
    (((divideToNearestEven n k * 2 ^ k : Nat) - n : Int).natAbs = ((j * 2 ^ k : Nat) - n : Int).natAbs →
      j ≠ divideToNearestEven n k → divideToNearestEven n k % 2 = 0 ∧ j % 2 = 1) := by
  obtain ⟨hhigh, hlow, heven⟩ := divideToNearestEven_spec n k
  have hpos : 0 < 2 ^ k := Nat.two_pow_pos k
  generalize divideToNearestEven n k = d at *
  rcases lt_trichotomy j d with hlt | rfl | hgt
  · obtain ⟨e, rfl⟩ : ∃ e, d = j + 1 + e := ⟨d - (j + 1), by omega⟩
    have hmul : (j + 1 + e) * 2 ^ k = j * 2 ^ k + 2 ^ k + e * 2 ^ k := by ring
    rcases Nat.eq_zero_or_pos e with rfl | he
    · omega
    · have hfar : 2 ^ k ≤ e * 2 ^ k := Nat.le_mul_of_pos_left _ he
      omega
  · exact ⟨le_rfl, fun _ hne => absurd rfl hne⟩
  · obtain ⟨e, rfl⟩ : ∃ e, j = d + 1 + e := ⟨j - (d + 1), by omega⟩
    have hmul : (d + 1 + e) * 2 ^ k = d * 2 ^ k + 2 ^ k + e * 2 ^ k := by ring
    rcases Nat.eq_zero_or_pos e with rfl | he
    · omega
    · have hfar : 2 ^ k ≤ e * 2 ^ k := Nat.le_mul_of_pos_left _ he
      omega

/-! ### Scale and significand of the rounded magnitude -/

/-- The scale, counted in 2^-149, that leaves 24 significant bits of n * 2^-298, or the lowest one. -/
def roundingScale (n : Nat) : Nat := n.log2 - 172

/-- The multiple of that scale nearest to n * 2^-298. -/
def roundedSignificand (n : Nat) : Nat := divideToNearestEven n (roundingScale n + 149)

theorem roundMagnitude_eq (n : Nat) :
    roundMagnitude n = min 0x7F800000 (roundingScale n * 2 ^ 23 + roundedSignificand n) := by
  have hscale : (quantumExponent n + 149).toNat = roundingScale n := by
    unfold quantumExponent roundingScale
    omega
  have hshift : (quantumExponent n + 298).toNat = roundingScale n + 149 := by
    unfold quantumExponent roundingScale
    omega
  simp only [roundMagnitude, hscale, hshift, roundedSignificand]
  split <;> omega

theorem lt_of_roundingScale (n : Nat) : n < 2 ^ 24 * 2 ^ (roundingScale n + 149) := by
  rw [← pow_add]
  refine lt_of_lt_of_le (Nat.lt_log2_self (n := n)) (Nat.pow_le_pow_right (by decide) ?_)
  unfold roundingScale
  omega

theorem roundingScale_eq_zero_or_le {n : Nat} (hn : 0 < n) :
    roundingScale n = 0 ∨ 2 ^ 23 * 2 ^ (roundingScale n + 149) ≤ n := by
  rcases Nat.eq_zero_or_pos (roundingScale n) with h0 | hpos
  · exact .inl h0
  · right
    rw [← pow_add]
    refine le_trans (Nat.pow_le_pow_right (by decide) ?_) (Nat.log2_self_le hn.ne')
    unfold roundingScale at *
    omega

theorem roundedSignificand_le (n : Nat) : roundedSignificand n ≤ 2 ^ 24 := by
  have hlt := lt_of_roundingScale n
  obtain ⟨hhigh, -, -⟩ := divideToNearestEven_spec n (roundingScale n + 149)
  rw [roundedSignificand]
  by_contra hbig
  have hmul : (2 ^ 24 + 1) * 2 ^ (roundingScale n + 149) ≤ _ := Nat.mul_le_mul_right _ (not_le.mp hbig)
  rw [Nat.succ_mul] at hmul
  omega

section Scale

variable {n : Nat} (hn : 0 < n)
include hn

theorem roundingScale_eq_zero_or_le_roundedSignificand : roundingScale n = 0 ∨ 2 ^ 23 ≤ roundedSignificand n := by
  refine (roundingScale_eq_zero_or_le hn).imp_right fun hle => ?_
  obtain ⟨-, hlow, -⟩ := divideToNearestEven_spec n (roundingScale n + 149)
  have hpos := Nat.two_pow_pos (roundingScale n + 149)
  rw [roundedSignificand]
  by_contra hsmall
  have hmul : (divideToNearestEven n (roundingScale n + 149) + 1) * 2 ^ (roundingScale n + 149) ≤ 2 ^ 23 * _ :=
    Nat.mul_le_mul_right _ (not_le.mp hsmall)
  rw [Nat.succ_mul] at hmul
  omega

/-- The rounded magnitude is the nearest: the multiples of its scale are what `divideToNearestEven_nearest` compares,
and a magnitude of a lower scale lies below the multiple 2^23, which is not above the value. A magnitude equally near
has an odd significand, for it is an odd multiple of the same scale. -/
theorem rounded_nearest {m s : Nat} (hm : m < 2 ^ 24) (hs : s = 0 ∨ 2 ^ 23 ≤ m) :
    ((roundedSignificand n * 2 ^ roundingScale n * 2 ^ 149 : Nat) - n : Int).natAbs ≤
      ((m * 2 ^ s * 2 ^ 149 : Nat) - n : Int).natAbs ∧
    (((roundedSignificand n * 2 ^ roundingScale n * 2 ^ 149 : Nat) - n : Int).natAbs =
        ((m * 2 ^ s * 2 ^ 149 : Nat) - n : Int).natAbs →
      m * 2 ^ s * 2 ^ 149 ≠ roundedSignificand n * 2 ^ roundingScale n * 2 ^ 149 →
        roundedSignificand n % 2 = 0 ∧ m % 2 = 1) := by
  have hunit (j e : Nat) : j * 2 ^ e * 2 ^ 149 = j * 2 ^ (e + 149) := by rw [mul_assoc, ← pow_add]
  rw [hunit, hunit]
  rcases lt_or_ge s (roundingScale n) with hlt | hge
  · have hle : 2 ^ 23 * 2 ^ (roundingScale n + 149) ≤ n :=
      (roundingScale_eq_zero_or_le hn).resolve_left (Nat.ne_zero_of_lt hlt)
    have hbelow : m * 2 ^ (s + 149) < 2 ^ 23 * 2 ^ (roundingScale n + 149) :=
      calc m * 2 ^ (s + 149) < 2 ^ 24 * 2 ^ (s + 149) := Nat.mul_lt_mul_of_pos_right hm (Nat.two_pow_pos _)
        _ = 2 ^ 23 * 2 ^ (s + 1 + 149) := by ring
        _ ≤ 2 ^ 23 * 2 ^ (roundingScale n + 149) :=
          Nat.mul_le_mul_left _ (Nat.pow_le_pow_right (by decide) (by omega))
    obtain ⟨hnear, -⟩ := divideToNearestEven_nearest n (roundingScale n + 149) (2 ^ 23)
    rw [roundedSignificand]
    omega
  · obtain ⟨d, rfl⟩ := Nat.exists_eq_add_of_le hge
    have hmultiple : m * 2 ^ (roundingScale n + d + 149) = m * 2 ^ d * 2 ^ (roundingScale n + 149) := by ring
    rw [hmultiple]
    obtain ⟨hnear, htie⟩ := divideToNearestEven_nearest n (roundingScale n + 149) (m * 2 ^ d)
    refine ⟨hnear, fun heq hne => ?_⟩
    obtain ⟨heven, hodd⟩ := htie heq fun h => hne (by rw [h, roundedSignificand])
    refine ⟨heven, ?_⟩
    cases d with
    | zero => simpa using hodd
    | succ d => rw [pow_succ, ← mul_assoc] at hodd; omega

/-- The rounded magnitude reaches 2^128 exactly from 2^128 - 2^103 on: that value is halfway between the greatest finite
magnitude, whose significand is odd, and 2^128. -/
theorem overflow_iff :
    0x7F800000 ≤ roundingScale n * 2 ^ 23 + roundedSignificand n ↔ (2 ^ 128 - 2 ^ 103) * 2 ^ 298 ≤ n := by
  have hlt := lt_of_roundingScale n
  have hle := roundingScale_eq_zero_or_le hn
  have hsig := roundedSignificand_le n
  have hsig' := roundingScale_eq_zero_or_le_roundedSignificand hn
  obtain ⟨hhigh, hlow, heven⟩ := divideToNearestEven_spec n (roundingScale n + 149)
  rw [← roundedSignificand] at hhigh hlow heven
  have hthreshold : (2 ^ 128 - 2 ^ 103) * 2 ^ 298 = (2 ^ 25 - 1) * 2 ^ 401 := by
    rw [show 2 ^ 128 - 2 ^ 103 = (2 ^ 25 - 1) * 2 ^ 103 by norm_num, mul_assoc, ← pow_add]
  rw [hthreshold]
  clear hthreshold
  rcases lt_trichotomy (roundingScale n) 253 with h | h | h
  · have hpow : 2 ^ (roundingScale n + 149) ≤ 2 ^ 401 := pow_le_pow_right₀ (by decide) (by omega)
    have hunit : 0 < 2 ^ 401 := by positivity
    generalize 2 ^ 401 = unit at *
    omega
  · have hpow : 2 ^ (roundingScale n + 149) = 2 ^ 401 * 2 := by rw [h, ← pow_succ]
    rw [hpow] at hlt hle hhigh hlow heven
    have hunit : 0 < 2 ^ 401 := by positivity
    generalize 2 ^ 401 = unit at *
    generalize roundedSignificand n = sig at *
    have hmul : sig * (unit * 2) = sig * unit * 2 := (mul_assoc _ _ _).symm
    obtain hsmall | rfl | rfl : sig ≤ 2 ^ 24 - 2 ∨ sig = 2 ^ 24 - 1 ∨ sig = 2 ^ 24 := by omega
    · have hbelow : sig * unit ≤ (2 ^ 24 - 2) * unit := Nat.mul_le_mul_right unit hsmall
      omega
    · omega
    · omega
  · have hpow : 2 ^ 401 * 2 ^ 2 ≤ 2 ^ (roundingScale n + 149) := by
      rw [← pow_add]
      exact pow_le_pow_right₀ (by decide) (by omega)
    have hunit : 0 < 2 ^ 401 := by positivity
    generalize 2 ^ 401 = unit at *
    omega

end Scale

/-! ### `round32` (rule R215) -/

theorem round32_toNat (n : Int) :
    (round32 n).toNat = (if n < 0 then 2 ^ 31 else 0) + roundMagnitude n.natAbs := by
  have hle : roundMagnitude n.natAbs ≤ 0x7F800000 := by rw [roundMagnitude_eq]; exact min_le_left _ _
  rw [round32, BitVec.toNat_ofNat]
  split <;> omega

theorem magnitudeBits_round32 (n : Int) : magnitudeBits (round32 n) = roundMagnitude n.natAbs := by
  have hle : roundMagnitude n.natAbs ≤ 0x7F800000 := by rw [roundMagnitude_eq]; exact min_le_left _ _
  rw [magnitudeBits, round32_toNat]
  split <;> omega

theorem signOf_round32 (n : Int) : signOf (round32 n) = decide (n < 0) := by
  have hle : roundMagnitude n.natAbs ≤ 0x7F800000 := by rw [roundMagnitude_eq]; exact min_le_left _ _
  rw [signOf_eq, round32_toNat]
  apply decide_eq_decide.mpr
  split <;> omega

/-- Below the threshold the magnitude bits are the packed significand and scale, unclamped. -/
theorem magnitudeBits_round32_of_lt {n : Int} (hn : n ≠ 0) (hlt : n.natAbs < (2 ^ 128 - 2 ^ 103) * 2 ^ 298) :
    magnitudeBits (round32 n) = roundingScale n.natAbs * 2 ^ 23 + roundedSignificand n.natAbs ∧
    magnitudeBits (round32 n) < 0x7F800000 := by
  have hno := mt (overflow_iff (Int.natAbs_pos.mpr hn)).mp (not_le.mpr hlt)
  rw [magnitudeBits_round32, roundMagnitude_eq]
  omega

theorem round32_isInfinity {n : Int} (hn : n ≠ 0) (hge : (2 ^ 128 - 2 ^ 103) * 2 ^ 298 ≤ n.natAbs) :
    isInfinity (round32 n) = true := by
  rw [isInfinity_iff, magnitudeBits_round32, roundMagnitude_eq]
  exact min_eq_left ((overflow_iff (Int.natAbs_pos.mpr hn)).mpr hge)

/-- A value counted in 2^-298. -/
theorem valueUnits_mul_two_pow (v : Word) :
    valueUnits v * 2 ^ 149 =
      if signOf v then -((magnitudeUnits v * 2 ^ 149 : Nat) : Int) else (magnitudeUnits v * 2 ^ 149 : Nat) := by
  rw [valueUnits]
  split <;> push_cast
  · rw [neg_mul]
  · rfl

/-- The distance of two values of one sign is that of their magnitudes. -/
theorem natAbs_sub_of_same_sign (n : Int) (x : Nat) :
    ((if n < 0 then -(x : Int) else x) - n).natAbs = ((x : Int) - n.natAbs).natAbs := by
  split <;> omega

/-- The distance of two values of opposite signs is the sum of their magnitudes. -/
theorem natAbs_sub_of_opposite_sign (n : Int) (x : Nat) :
    ((if n < 0 then (x : Int) else -x) - n).natAbs = x + n.natAbs := by
  split <;> omega

/-- No finite pattern is nearer than the rounded one: of the same sign by `rounded_nearest`; of the other sign it is no
nearer than zero is, which is not nearer either. -/
theorem round32_nearest {n : Int} (hn : n ≠ 0) (hlt : n.natAbs < (2 ^ 128 - 2 ^ 103) * 2 ^ 298) (u : Word) :
    (valueUnits (round32 n) * 2 ^ 149 - n).natAbs ≤ (valueUnits u * 2 ^ 149 - n).natAbs ∧
    ((valueUnits (round32 n) * 2 ^ 149 - n).natAbs = (valueUnits u * 2 ^ 149 - n).natAbs →
      valueUnits u ≠ valueUnits (round32 n) → (round32 n).getLsbD 0 = false ∧ u.getLsbD 0 = true) := by
  have hpos : 0 < n.natAbs := Int.natAbs_pos.mpr hn
  obtain ⟨hbits, -⟩ := magnitudeBits_round32_of_lt hn hlt
  have hmag := magnitudeUnits_of_packed hbits (roundedSignificand_le _)
    (roundingScale_eq_zero_or_le_roundedSignificand hpos)
  clear hlt
  have hnear := rounded_nearest hpos (significandOf_lt u) (scaleOf_eq_zero_or u)
  have hzero := rounded_nearest hpos (m := 0) (s := 0) (by decide) (.inl rfl)
  have hodd : u.getLsbD 0 = true ↔ significandOf u % 2 = 1 := by
    rw [getLsbD_zero_eq, magnitudeBits_eq, decide_eq_true_eq]
    omega
  have heven : (round32 n).getLsbD 0 = false ↔ roundedSignificand n.natAbs % 2 = 0 := by
    rw [getLsbD_zero_eq, hbits, decide_eq_false_iff_not]
    omega
  have hne : valueUnits u ≠ valueUnits (round32 n) ↔ valueUnits u * 2 ^ 149 ≠ valueUnits (round32 n) * 2 ^ 149 :=
    (mul_left_inj' (by positivity)).not.symm
  rw [← hmag, ← magnitudeUnits_eq u] at hnear
  rw [← hmag, zero_mul, zero_mul] at hzero
  rw [hne, hodd, heven, valueUnits_mul_two_pow, valueUnits_mul_two_pow, signOf_round32]
  simp only [decide_eq_true_eq]
  obtain ⟨x, hx⟩ : ∃ x, magnitudeUnits (round32 n) * 2 ^ 149 = x := ⟨_, rfl⟩
  obtain ⟨y, hy⟩ : ∃ y, magnitudeUnits u * 2 ^ 149 = y := ⟨_, rfl⟩
  rw [hx, hy] at hnear ⊢
  rw [hx] at hzero
  rw [natAbs_sub_of_same_sign]
  by_cases hsame : signOf u = decide (n < 0)
  · simp only [hsame, decide_eq_true_eq, natAbs_sub_of_same_sign]
    obtain ⟨hle, htie⟩ := hnear
    exact ⟨hle, fun heq hvalues => htie heq fun hxy => hvalues (by rw [hxy])⟩
  · have hflip : (if signOf u then -(y : Int) else y) = if n < 0 then (y : Int) else -y := by
      by_cases hneg : n < 0 <;> simp_all
    rw [hflip, natAbs_sub_of_opposite_sign]
    obtain ⟨hle, htie⟩ := hzero
    rw [Nat.cast_zero, zero_sub, Int.natAbs_neg, Int.natAbs_natCast] at hle htie
    refine ⟨by omega, fun heq hvalues => ?_⟩
    obtain rfl : y = 0 := by omega
    have hx0 : 0 ≠ x := fun h => hvalues (by rw [← h]; simp)
    exact absurd (htie (by omega) hx0).2 (by decide)

/-- Settles O38: sign, overflow, and below it a finite pattern that is the nearest. -/
theorem roundingIsToNearestTiesToEven : Obligations.RoundingIsToNearestTiesToEven := by
  refine fun n hn => ⟨signOf_round32 n, round32_isInfinity hn, fun hlt => ⟨?_, fun u _ => round32_nearest hn hlt u⟩⟩
  exact (isFinite_iff _).mpr (magnitudeBits_round32_of_lt hn hlt).2

end Sys2Proof.Machine
end

section
/-! PROOFS about the fused multiply-add's cases (48_fp_fma.md section 2): NaN, infinity, exact zero, and one rounding.
-/

namespace Sys2Proof.Machine

/-! ### The landmark patterns are of their class -/

theorem magnitudeBits_infinityWith (negative : Bool) : magnitudeBits (infinityWith negative) = 0x7F800000 := by
  cases negative <;> rfl

theorem signOf_infinityWith (negative : Bool) : signOf (infinityWith negative) = negative := by cases negative <;> rfl

theorem signOf_zeroWith (negative : Bool) : signOf (zeroWith negative) = negative := by cases negative <;> rfl

theorem isZero_zeroWith (negative : Bool) : isZero (zeroWith negative) = true := by cases negative <;> rfl

theorem isInfinity_infinityWith (negative : Bool) : isInfinity (infinityWith negative) = true :=
  (isInfinity_iff _).mpr (magnitudeBits_infinityWith negative)

theorem isNaN_infinityWith (negative : Bool) : isNaN (infinityWith negative) = false := by
  rw [← Bool.not_eq_true, isNaN_iff, magnitudeBits_infinityWith]
  exact lt_irrefl _

theorem isNaN_zeroResult (a b c : Word) : isNaN (zeroResult a b c) = false := by
  rw [zeroResult]
  split
  · cases signOf c <;> rfl
  · rfl

theorem isNaN_round32 (n : Int) : isNaN (round32 n) = false := by
  rw [← Bool.not_eq_true, isNaN_iff, magnitudeBits_round32, roundMagnitude_eq, not_lt]
  exact min_le_left _ _

/-! ### NaN results (rule R216) -/

/-- Of the six cases of `fma32` only the two NaN ones give a NaN. -/
theorem fma32_eq_fmaNaN_of_isNaN {a b c : Word} (h : isNaN (fma32 a b c) = true) : fma32 a b c = fmaNaN := by
  rcases fma32_cases a b c with ⟨-, hx⟩ | ⟨-, -, -, hx⟩ | ⟨-, -, -, hx⟩ | ⟨hnan, -, -, hx⟩ | ⟨-, -, -, -, hx⟩ |
    ⟨-, -, -, -, hx⟩
  · exact hx
  · exact hx
  · rw [hx, isNaN_infinityWith] at h
    cases h
  · rw [hx] at h
    rw [h, Bool.or_true] at hnan
    cases hnan
  · rw [hx, isNaN_zeroResult] at h
    cases h
  · rw [hx, isNaN_round32] at h
    cases h

/-- The quiet bit is set, whatever the free bits. -/
theorem quiet_pattern_getLsbD (g : BitVec 23) :
    (g.extractLsb' 22 1 ++ 0xFF#8 ++ 0b1#1 ++ g.extractLsb' 0 22).getLsbD 22 = true := by
  simp only [BitVec.getLsbD_append]
  simp

theorem classOf_fmaNaN : classOf fmaNaN = .quietNaN := by
  have hnan := fmaNaN_is_nan
  simp only [isNaN, Bool.and_eq_true, beq_iff_eq, bne_iff_ne] at hnan
  obtain ⟨hexp, hfrac⟩ := hnan
  have hquiet : fmaNaN.getLsbD 22 = true := quiet_pattern_getLsbD _
  rw [classOf, if_neg (by rw [hexp]; decide), if_pos hexp, if_neg hfrac, if_pos hquiet]

/-- Settles O41: a NaN operand is the first case, and a NaN result is always the one pattern, which is quiet whatever
its free bits are (log 5). -/
theorem naNResultsAreOneQuietNaN : Obligations.NaNResultsAreOneQuietNaN := by
  refine ⟨fun a b c h => ?_, fun a b c h => ?_, fun a b c a' b' c' h h' => ?_⟩
  · have hnan : (isNaN a || isNaN b || isNaN c) = true := by simpa [or_assoc] using h
    rw [fma32, if_pos hnan]
    exact fmaNaN_is_nan
  · rw [fma32_eq_fmaNaN_of_isNaN h, classOf_fmaNaN]
  · rw [fma32_eq_fmaNaN_of_isNaN h, fma32_eq_fmaNaN_of_isNaN h']

/-! ### Infinite operands (rule R214) -/

section Infinite

variable {a b c : Word} (ha : isNaN a = false) (hb : isNaN b = false) (hc : isNaN c = false)
include ha hb hc

/-- inf * 0 and inf - inf. -/
theorem fma32_of_invalid (hinf : isInfinity a = true ∨ isInfinity b = true)
    (h : (isZero a = true ∨ isZero b = true) ∨ (isInfinity c = true ∧ signOf c ≠ (signOf a ^^ signOf b))) :
    fma32 a b c = fmaNaN := by
  have hinf' : (isInfinity a || isInfinity b) = true := Bool.or_eq_true_iff.mpr hinf
  simp only [fma32, ha, hb, hc, Bool.or_self, Bool.false_eq_true, if_false, hinf', if_true]
  rcases h with hzero | ⟨hcinf, hsign⟩
  · rw [if_pos (Bool.or_eq_true_iff.mpr hzero)]
  · have hopposed : (isInfinity c && signOf c != (signOf a ^^ signOf b)) = true := by
      rw [hcinf, Bool.true_and, bne_iff_ne]
      exact hsign
    rw [if_pos hopposed, ite_self]

/-- Any other infinite product. -/
theorem fma32_of_infinite_product (hinf : isInfinity a = true ∨ isInfinity b = true) (hza : isZero a = false)
    (hzb : isZero b = false) (hsign : isInfinity c = true → signOf c = (signOf a ^^ signOf b)) :
    fma32 a b c = infinityWith (signOf a ^^ signOf b) := by
  have hinf' : (isInfinity a || isInfinity b) = true := Bool.or_eq_true_iff.mpr hinf
  have hagree : (isInfinity c && signOf c != (signOf a ^^ signOf b)) = false := by
    cases hcinf : isInfinity c with
    | false => rfl
    | true => rw [hsign hcinf, bne_self_eq_false, Bool.and_false]
  simp only [fma32, ha, hb, hc, hza, hzb, hagree, Bool.or_self, Bool.false_eq_true, if_false, hinf', if_true]

end Infinite

/-- A finite product and an infinite addend. -/
theorem fma32_of_infinite_addend {a b c : Word} (ha : isFinite a = true) (hb : isFinite b = true)
    (hc : isNaN c = false) (hinf : isInfinity c = true) : fma32 a b c = c := by
  simp only [fma32, isNaN_of_isFinite ha, isNaN_of_isFinite hb, isInfinity_of_isFinite ha, isInfinity_of_isFinite hb,
    hc, hinf, Bool.or_self, Bool.false_eq_true, if_false, if_true]

/-- Settles O40: the three lemmas above. -/
theorem infiniteFusedResults : Obligations.InfiniteFusedResults := by
  refine fun a b c ha hb hc => ⟨fun hinf => ⟨fun hinvalid => ?_, fun hza hzb hsign => ?_⟩,
    fun hfa hfb hcinf => fma32_of_infinite_addend hfa hfb hc hcinf⟩
  · rw [fma32_of_invalid ha hb hc hinf hinvalid]
    exact fmaNaN_is_nan
  · rw [fma32_of_infinite_product ha hb hc hinf hza hzb hsign]
    exact ⟨isInfinity_infinityWith _, signOf_infinityWith _⟩

/-! ### Finite operands: one rounding (rule R214) -/

/-- A finite value is below the threshold of the infinity. -/
theorem natAbs_valueUnits_lt {u : Word} (hu : isFinite u = true) :
    (valueUnits u * 2 ^ 149).natAbs < (2 ^ 128 - 2 ^ 103) * 2 ^ 298 := by
  have hscale : scaleOf u ≤ 253 := by
    rw [isFinite_iff] at hu
    rw [scaleOf, exponentOf_eq]
    omega
  rw [Int.natAbs_mul, natAbs_valueUnits, magnitudeUnits_eq]
  calc significandOf u * 2 ^ scaleOf u * (2 ^ 149 : Int).natAbs
    _ ≤ (2 ^ 24 - 1) * 2 ^ 253 * 2 ^ 149 := by
      gcongr
      · exact Nat.le_sub_one_of_lt (significandOf_lt u)
      · decide
      · exact (Int.natAbs_pow 2 149).le
    _ < (2 ^ 128 - 2 ^ 103) * 2 ^ 298 := by decide +kernel

/-- A value that a finite pattern holds exactly is rounded to that pattern: nothing else is at distance zero. -/
theorem round32_eq_of_exact {u : Word} {n : Int} (hu : isFinite u = true) (hn : valueUnits u * 2 ^ 149 = n)
    (hne : n ≠ 0) : round32 n = u := by
  have hlt : n.natAbs < (2 ^ 128 - 2 ^ 103) * 2 ^ 298 := hn ▸ natAbs_valueUnits_lt hu
  obtain ⟨hnear, -⟩ := round32_nearest hne hlt u
  rw [hn, sub_self, Int.natAbs_zero, Nat.le_zero, Int.natAbs_eq_zero, sub_eq_zero, ← hn] at hnear
  have hvalue : valueUnits u = valueUnits (round32 n) := by
    rw [← hn]
    exact (mul_right_cancel₀ (by positivity) hnear).symm
  exact (eq_of_valueUnits_eq hvalue fun h => hne (by rw [← hn, h, zero_mul])).symm

/-- Settles O39: of finite operands `fma32` is one rounding of the exact value, and an exact value is kept. -/
theorem finiteFusedResultIsRoundedOnce : Obligations.FiniteFusedResultIsRoundedOnce := by
  intro a b c ha hb hc
  refine ⟨fun hne => fma32_eq_round32 ha hb hc rfl hne, fun u hu hn hne => ?_⟩
  exact (fma32_eq_round32 ha hb hc rfl hne).trans (round32_eq_of_exact hu hn hne)

/-! ### An exactly zero result (rule R217) -/

/-- Settles O42: the exact value is zero, so the result is `zeroResult`, whose test is the table's. -/
theorem zeroResultHasTheSignOfTheTable : Obligations.ZeroResultHasTheSignOfTheTable := by
  intro a b c ha hb hc
  have hzero (hprod : valueUnits a * valueUnits b = 0) (hvc : valueUnits c = 0) :
      fma32 a b c = if (signOf a ^^ signOf b) = signOf c then zeroWith (signOf c) else zeroWith false := by
    have hfactor : (isZero a || isZero b) = true := by
      rw [Bool.or_eq_true_iff, ← valueUnits_eq_zero_iff, ← valueUnits_eq_zero_iff]
      exact mul_eq_zero.mp hprod
    have hcz : isZero c = true := (valueUnits_eq_zero_iff c).mp hvc
    rw [fma32_eq_zeroResult ha hb hc (by rw [fusedExact, hprod, hvc, zero_mul, add_zero]), zeroResult, hfactor, hcz]
    simp only [Bool.and_self, Bool.true_and, beq_iff_eq]
  refine ⟨fun hprod hvc hsign => ?_, fun hprod hvc hsign => ?_, fun hprod hsum => ?_⟩
  · rw [hzero hprod hvc, if_pos hsign, hsign]
    exact ⟨isZero_zeroWith _, signOf_zeroWith _⟩
  · rw [hzero hprod hvc, if_neg hsign]
    rfl
  · have hfactor : (isZero a || isZero b) = false := by
      rw [← Bool.not_eq_true, Bool.or_eq_true_iff, ← valueUnits_eq_zero_iff, ← valueUnits_eq_zero_iff]
      exact fun h => hprod (mul_eq_zero.mpr h)
    rw [fma32_eq_zeroResult ha hb hc hsum, zeroResult, hfactor]
    rfl

/-! ### The negated forms (90_conflicts.md C2) -/

theorem fneg_infinityWith (negative : Bool) : fneg (infinityWith negative) = infinityWith (!negative) := by
  cases negative <;> rfl

/-- Rounding is symmetric: the magnitude is rounded, and the sign is put on it. -/
theorem round32_neg {n : Int} (hn : n ≠ 0) : round32 (-n) = fneg (round32 n) := by
  apply eq_of_sign_of_magnitudeBits
  · rw [signOf_fneg, signOf_round32, signOf_round32, ← decide_not]
    apply decide_eq_decide.mpr
    omega
  · have hfneg (v : Word) : magnitudeBits (fneg v) = magnitudeBits v := by
      rw [magnitudeBits_eq, magnitudeBits_eq, scaleOf, scaleOf, significandOf, significandOf, exponentOf_fneg,
        fractionOf_fneg]
    rw [hfneg, magnitudeBits_round32, magnitudeBits_round32, Int.natAbs_neg]

/-- The exact value of the negated operands is the negated exact value. -/
theorem fusedExact_fneg (a b c : Word) : fusedExact (fneg a) b (fneg c) = -fusedExact a b c := by
  rw [fusedExact, fusedExact, valueUnits_fneg, valueUnits_fneg]
  ring

@[simp] theorem isFinite_fneg (v : Word) : isFinite (fneg v) = isFinite v := by simp [isFinite]

/-- Settles O43: case by case of `fma32`; negating the operands keeps the case and negates its result, except in the
case of an exact zero, which the premise leaves out. -/
theorem negatedFormsAgreeAwayFromExactZero : Obligations.NegatedFormsAgreeAwayFromExactZero := by
  refine ⟨fun a b c hres hfin => ?_, by decide +kernel, by decide +kernel⟩
  have hflip : (signOf (fneg a) ^^ signOf b) = !(signOf a ^^ signOf b) := by rw [signOf_fneg, Bool.not_xor]
  rcases fma32_cases a b c with ⟨-, hx⟩ | ⟨-, -, -, hx⟩ | ⟨hnan, hinf, hok, hx⟩ | ⟨hnan, hinf, hcinf, hx⟩ |
    ⟨hnan, hinf, hcinf, hzero, hx⟩ | ⟨hnan, hinf, hcinf, hne, hx⟩
  · rw [hx, fmaNaN_is_nan] at hres
    cases hres
  · rw [hx, fmaNaN_is_nan] at hres
    cases hres
  all_goals
    simp only [Bool.or_eq_false_iff] at hnan
    obtain ⟨⟨hna, hnb⟩, hnc⟩ := hnan
  · simp only [Bool.or_eq_false_iff] at hok
    obtain ⟨⟨hza, hzb⟩, hopposed⟩ := hok
    have hagree : isInfinity c = true → signOf c = (signOf a ^^ signOf b) := fun hc => by
      simpa [hc] using hopposed
    rw [hx, fneg_infinityWith, ← hflip]
    refine fma32_of_infinite_product (by simpa using hna) hnb (by simpa using hnc) (by simpa using hinf)
      (by simpa using hza) hzb fun hc => ?_
    rw [isInfinity_fneg] at hc
    rw [hflip, signOf_fneg, hagree hc]
  · simp only [Bool.or_eq_false_iff] at hinf
    have hfa : isFinite (fneg a) = true := (isFinite_fneg a).trans (isFinite_of_not hna hinf.1)
    rw [hx]
    exact fma32_of_infinite_addend hfa (isFinite_of_not hnb hinf.2) (by simpa using hnc) (by simpa using hcinf)
  all_goals
    simp only [Bool.or_eq_false_iff] at hinf
    obtain ⟨hia, hib⟩ := hinf
    have hfa := isFinite_of_not hna hia
    have hfb := isFinite_of_not hnb hib
    have hfc := isFinite_of_not hnc hcinf
  · exact absurd hzero (hfin ⟨hfa, hfb, hfc⟩)
  · rw [hx, ← round32_neg hne]
    exact fma32_eq_round32 (by simpa using hfa) hfb (by simpa using hfc) (fusedExact_fneg a b c) (neg_ne_zero.mpr hne)

end Sys2Proof.Machine
end
